-- ==== Sys2Proof/Word.lean ====
section
/-! DEFINITION. The values the engine computes with: words, characters, texts, and the two operand
kinds a format M command carries in its mode bit (spec/00_scope.md R5, R8, R13; spec/30_encoding.md R78). -/

namespace Sys2Proof

/-- A word: an unsigned 32-bit integer, bit 31 most significant (R8). A command word and the contents of
a host register are words too (R54, R70). -/
abbrev Word := BitVec 32

/-- A character: an unsigned 16-bit character code (R13). -/
abbrev Character := BitVec 16

/-- A text: a finite sequence of characters, possibly empty (R13). -/
abbrev Text := List Character

/-- The bit-width mode of a computation, 8 or 16 bits taken from each character (R5, R78). -/
inductive Width where
  /-- 8 bits per character: mode bit 0, the source's default. -/
  | w8
  /-- 16 bits per character: mode bit 1. -/
  | w16
deriving DecidableEq, Repr

/-- The hex case of the HEX command (R78). -/
inductive HexCase where
  /-- lowercase digits, `u = 0`: mode bit 0, the source's default. -/
  | lower
  /-- uppercase digits, `u = 1`: mode bit 1. -/
  | upper
deriving DecidableEq, Repr

end Sys2Proof
end

