-- ==== Sys2Proof/Syntax.lean ====
section
/-! DEFINITION. The commands of the engine (spec/30_encoding.md R74, R75): one constructor for each row of
spec/opcode_table.json. "Instruction" means command here (spec/00_scope.md, glossary). -/

namespace Sys2Proof

/-- The ten commands, `Command` of R75 without `ILLEGAL`. The mode bit of a format M command is held as
what it selects (R78); a character operand is the 16-bit immediate as it stands (R72). -/
inductive Instr where
  /-- NOP: nothing (R101). -/
  | nop
  /-- CLR: back to the reset state (R102). -/
  | clr
  /-- PUSHD ch: append `ch` to the DATA text (R103). -/
  | pushd (ch : Character)
  /-- PUSHK ch: append `ch` to the KEY text (R104). -/
  | pushk (ch : Character)
  /-- SHA1.w: digest of the DATA text (R140). -/
  | sha1 (w : Width)
  /-- HMAC.w: HMAC-SHA1 of the DATA text under the KEY text (R167). -/
  | hmac (w : Width)
  /-- HEX.u: hexadecimal rendering of the digest (R179). -/
  | hex (u : HexCase)
  /-- B64: unpadded base-64 rendering of the digest (R180). -/
  | b64
  /-- TXT.w: the digest as raw characters (R182). -/
  | txt (w : Width)
  /-- B64P ch: base-64 rendering of the digest, padded with `ch` (R181). -/
  | b64p (ch : Character)
deriving DecidableEq, Repr

end Sys2Proof
end

