-- ==== Sys2Proof/Port.lean ====
section
/-! DEFINITION. What the host can do to the engine (spec/70_reset_and_hazards.md R219): the accesses to the
host register space and the reset event. -/

namespace Sys2Proof

/-- The number of locations of the host register space, indexed `0x00 .. 0x3F` (R50). -/
abbrev registerCount : Nat := 64

/-- The index of CMD, the one register a write to which does something (R51, R53). -/
abbrev cmdIndex : Nat := 0x00

/-- One action of the host on the engine: `Write(i, v)`, `Read(i)` or the reset event (R50, R210, R219). -/
inductive HostEvent where
  /-- `Write(index, value)`; to index 0 it is `Cmd(value)` (R53). -/
  | write (index : Nat) (value : Word)
  /-- `Read(index)` (R52). -/
  | read (index : Nat)
  /-- The reset event (R210). -/
  | reset
deriving DecidableEq, Repr

end Sys2Proof
end

