-- ==== Sys2Proof/WellFormed.lean ====
section
/-! DEFINITION. What makes a host event well formed. An instruction needs no check: the types of its
operands hold exactly the values its encoding admits (a 16-bit character R72, one mode bit R73), so every
term of `Instr` is an instruction and the decoder answers with nothing else. The raw 32-bit words that
spell no command are refused by name in Sys2Proof/Decode.lean. -/

namespace Sys2Proof

/-- The host register space has exactly the indices `0x00 .. 0x3F` (R50): an access elsewhere is no
access the engine has. -/
def HostEvent.wellFormed : HostEvent → Bool
  | .write index _ => decide (index < registerCount)
  | .read index => decide (index < registerCount)
  | .reset => true

end Sys2Proof
end

