-- ==== Sys2Proof/Decode.lean ====
section
/-! DEFINITION. The command word (spec/30_encoding.md R70 to R78): its fields, the total decoder
`Decode32`, the encoder, and the opcode map as a table of rows. -/

namespace Sys2Proof

/-! ## The four fields (R70) -/

/-- `OPC`, `c[31:24]`. -/
def opcField (c : Word) : BitVec 8 := c.extractLsb' 24 8

/-- `RSV`, `c[23:17]`, zero in every command. -/
def rsvField (c : Word) : BitVec 7 := c.extractLsb' 17 7

/-- `M`, `c[16]`. -/
def modeField (c : Word) : Bool := c.getLsbD 16

/-- `IMM`, `c[15:0]`. -/
def immField (c : Word) : Character := c.extractLsb' 0 16

/-! ## What the mode bit selects (R78) -/

/-- `M = 0` is 8 bits per character, `M = 1` is 16. -/
def Width.ofMode : Bool → Width
  | false => .w8
  | true => .w16

/-- The mode bit that spells a width. -/
def Width.mode : Width → Bool
  | .w8 => false
  | .w16 => true

/-- `M = 0` is lowercase, `M = 1` is uppercase. -/
def HexCase.ofMode : Bool → HexCase
  | false => .lower
  | true => .upper

/-- The mode bit that spells a hex case. -/
def HexCase.mode : HexCase → Bool
  | .lower => false
  | .upper => true

/-! ## The decoder (R75, R76) -/

/-- Why a word spells no command, the four grounds of R76. The engine makes no difference between them
(every one is `ILLEGAL` and raises `E_ILLCMD`); where several hold, the first in this order is named
(DESIGN CHOICE, safe: nothing reads it; log entry 7). -/
inductive IllegalWord where
  /-- an `OPC` other than the ten listed. -/
  | unassignedOpcode
  /-- a non-zero `RSV`. -/
  | reservedBits
  /-- `M = 1` in a format Z or C command. -/
  | modeBit
  /-- a non-zero `IMM` in a format Z or M command. -/
  | immediate
deriving DecidableEq, Repr

/-- Format Z, no operand: `c[23:0]` all zero (R71). -/
def decodeZ (c : Word) (i : Instr) : Except IllegalWord Instr :=
  if rsvField c ≠ 0 then .error .reservedBits
  else if modeField c then .error .modeBit
  else if immField c ≠ 0 then .error .immediate
  else .ok i

/-- Format C, one character: `c[23:16]` all zero, the immediate used as it stands (R72). -/
def decodeC (c : Word) (mk : Character → Instr) : Except IllegalWord Instr :=
  if rsvField c ≠ 0 then .error .reservedBits
  else if modeField c then .error .modeBit
  else .ok (mk (immField c))

/-- Format M, one mode bit: `c[23:17]` and `c[15:0]` all zero (R73). -/
def decodeM (c : Word) (mk : Bool → Instr) : Except IllegalWord Instr :=
  if rsvField c ≠ 0 then .error .reservedBits
  else if immField c ≠ 0 then .error .immediate
  else .ok (mk (modeField c))

/-- `Decode32`, total on all `2^32` words; an error is `ILLEGAL` (R74, R75). It reads nothing but `c`. -/
def decode32 (c : Word) : Except IllegalWord Instr :=
  if opcField c = 0x00 then decodeZ c .nop
  else if opcField c = 0x01 then decodeZ c .clr
  else if opcField c = 0x02 then decodeC c .pushd
  else if opcField c = 0x03 then decodeC c .pushk
  else if opcField c = 0x10 then decodeM c fun m => .sha1 (Width.ofMode m)
  else if opcField c = 0x11 then decodeM c fun m => .hmac (Width.ofMode m)
  else if opcField c = 0x20 then decodeM c fun m => .hex (HexCase.ofMode m)
  else if opcField c = 0x21 then decodeZ c .b64
  else if opcField c = 0x22 then decodeM c fun m => .txt (Width.ofMode m)
  else if opcField c = 0x23 then decodeC c .b64p
  else .error .unassignedOpcode

/-! ## The encoder (R71 to R74, R79) -/

/-- Format Z: `OPC << 24` (R71). -/
def encodeZ (opc : BitVec 8) : Word := opc.setWidth 32 <<< 24

/-- Format C: `(OPC << 24) OR ch` (R72). -/
def encodeC (opc : BitVec 8) (ch : Character) : Word := (opc.setWidth 32 <<< 24) ||| ch.setWidth 32

/-- Format M: `(OPC << 24) OR (M << 16)` (R73). -/
def encodeM (opc : BitVec 8) (m : Bool) : Word :=
  (opc.setWidth 32 <<< 24) ||| ((BitVec.ofBool m).setWidth 32 <<< 16)

/-- The command word of an instruction. -/
def encode : Instr → Word
  | .nop => encodeZ 0x00
  | .clr => encodeZ 0x01
  | .pushd ch => encodeC 0x02 ch
  | .pushk ch => encodeC 0x03 ch
  | .sha1 w => encodeM 0x10 w.mode
  | .hmac w => encodeM 0x11 w.mode
  | .hex u => encodeM 0x20 u.mode
  | .b64 => encodeZ 0x21
  | .txt w => encodeM 0x22 w.mode
  | .b64p ch => encodeC 0x23 ch

/-! ## The opcode map as a table (R74) -/

/-- One row of R74's table: a word `c` spells the command exactly when `c AND mask = pattern`. -/
structure OpcodeRow where
  mnemonic : String
  pattern : Word
  mask : Word
deriving DecidableEq, Repr

/-- The ten rows of R74, in its order. -/
def opcodeMap : List OpcodeRow :=
  [⟨"NOP", 0x00000000, 0xFFFFFFFF⟩,
   ⟨"CLR", 0x01000000, 0xFFFFFFFF⟩,
   ⟨"PUSHD", 0x02000000, 0xFFFF0000⟩,
   ⟨"PUSHK", 0x03000000, 0xFFFF0000⟩,
   ⟨"SHA1", 0x10000000, 0xFFFEFFFF⟩] ++
  [⟨"HMAC", 0x11000000, 0xFFFEFFFF⟩,
   ⟨"HEX", 0x20000000, 0xFFFEFFFF⟩,
   ⟨"B64", 0x21000000, 0xFFFFFFFF⟩,
   ⟨"TXT", 0x22000000, 0xFFFEFFFF⟩,
   ⟨"B64P", 0x23000000, 0xFFFF0000⟩]

/-- The mnemonic of an instruction, as R74 spells it. -/
def Instr.mnemonic : Instr → String
  | .nop => "NOP"
  | .clr => "CLR"
  | .pushd _ => "PUSHD"
  | .pushk _ => "PUSHK"
  | .sha1 _ => "SHA1"
  | .hmac _ => "HMAC"
  | .hex _ => "HEX"
  | .b64 => "B64"
  | .txt _ => "TXT"
  | .b64p _ => "B64P"

/-! ## The table's numbering -/

/-- A command is one 32-bit number (R57, R70), numbered by the opcode table as by the spec; bits above
`nbits` are zero. -/
def tableWord (nbits w : Nat) : Word := BitVec.ofNat 32 (w % 2 ^ nbits)

/-- The instruction the decoder reads from a word numbered as spec/opcode_table.json numbers it. -/
def decodeTableWord (nbits w : Nat) : Option Instr := (decode32 (tableWord nbits w)).toOption

end Sys2Proof
end

