-- ==== Sys2Proof/Config.lean ====
section
/-! DEFINITION. The open parameters of the engine (spec/00_scope.md R6): what one instance fixes and the
spec leaves open. They are carried by every state, unchanged by every step, so that a statement about all
states is a statement about all capacities. `BusMap`, the third open parameter, is the platform's and is
not part of a model of the engine alone (spec/20_memory.md R54). -/

namespace Sys2Proof

/-- The capacities of the two text buffers in characters, with the bounds R6 says a model must impose:
`0 <= KEY_MAX <= 2^28 - 1` and `0 <= DATA_MAX <= 2^28 - 33`. -/
structure Config where
  /-- `KEY_MAX`. -/
  keyMax : Fin (2 ^ 28)
  /-- `DATA_MAX`. -/
  dataMax : Fin (2 ^ 28 - 32)
deriving DecidableEq, Repr

/-- DESIGN CHOICE (unsafe; log entry 1): the capacities that `State.reset` carries. The spec gives no
number; these are the largest R6 allows. No statement of the model rests on them. -/
def Config.atReset : Config where
  keyMax := ⟨2 ^ 28 - 1, by decide⟩
  dataMax := ⟨2 ^ 28 - 33, by decide⟩

end Sys2Proof
end

