-- ==== Sys2Proof/Machine/State.lean ====
section
/-! DEFINITION. The architectural state (spec/10_state.md R20 to R27, R35), the reasons a step can stop, and
the reset state. The compressor's and the HMAC wrapper's registers (R28 to R30) are created and dead inside
one command and R31 says a model should not carry them: they are the values inside the functions of
Compressor.lean and Hmac.lean. The engine has no program counter, no flags and no memory (R32, R33, R50). -/

namespace Sys2Proof.Machine

/-- The error codes of `ERR` (R26, R190). -/
inductive ErrorCode where
  /-- 0 `E_NONE`: no error since the last CLR or reset. -/
  | eNone
  /-- 1 `E_ILLCMD`: illegal command word (R191). -/
  | eIllCmd
  /-- 2 `E_CAPACITY`: the target buffer is full (R192). -/
  | eCapacity
  /-- 3 `E_NODIGEST`: no digest has been computed (R193). -/
  | eNoDigest
deriving DecidableEq, Repr

/-- Five words `H0 .. H4`: a digest, and the chaining value the compressor carries from block to block
(R23, R28). -/
structure Digest where
  h0 : Word
  h1 : Word
  h2 : Word
  h3 : Word
  h4 : Word
deriving DecidableEq, Repr

/-- Five zero words, what `DG` holds while no digest exists (R35). -/
def Digest.zero : Digest := ⟨0, 0, 0, 0, 0⟩

/-- The engine's persistent state `S` (R20). KEYLEN, DATLEN and STATUS are views of it
(Machine/HostRegisters.lean). -/
structure Engine where
  /-- `KEY`: the key text, raw 16-bit characters in push order (R21). -/
  key : Text
  /-- `DATA`: the message text, in push order (R22). -/
  data : Text
  /-- `DG[0..4]`: the digest register (R23). -/
  dg : Digest
  /-- `DGV`: digest valid (R24). -/
  dgv : Bool
  /-- `OUT[0..39]`: the result string (R25). -/
  out : Vector Character 40
  /-- `OUTLEN`: the number of valid characters in `OUT` (R25). -/
  outlen : Nat
  /-- `ERR`: the first error since the last CLR or reset (R26). -/
  err : ErrorCode
deriving DecidableEq, Repr

/-- `S0`, the state after reset, every field as R35 gives it. -/
def Engine.reset : Engine where
  key := []
  data := []
  dg := Digest.zero
  dgv := false
  out := Vector.replicate 40 0
  outlen := 0
  err := .eNone

/-- The engine and the host's side of it. `engine` is the spec's; the other three fields are the model's
own (log entries 1 and 2). -/
structure State where
  /-- The engine's persistent state `S`. -/
  engine : Engine
  /-- The instance's capacities (R6); no step changes them. -/
  cfg : Config
  /-- The host's accesses the engine has not served yet, oldest first (R58: they take effect one at a
  time in the order issued; R213: an access that arrives meanwhile is held). -/
  pending : List HostEvent
  /-- The values the host's reads have returned, oldest first (R219, "host gets back"). -/
  replies : List Word
deriving DecidableEq, Repr

/-- Why a step stops with a fault. No command ever faults (R100: "no command hangs, faults the host or
leaves the engine in a condition outside" its state). -/
inductive Fault where
  /-- A host access names an index outside the 64 locations `0x00 .. 0x3F` (R50). Raised by
  `hostWrite` and `hostRead` only. Safe: such an access does not exist, so nothing the engine does is cut
  off. -/
  | noSuchRegister (index : Nat)
deriving DecidableEq, Repr

/-- Why a step is refused. -/
inductive Refusal where
  /-- An instruction without a meaning. No arm of `exec` answers with it: all ten commands have their
  meaning. Safe. -/
  | notModelled (mnemonic : String)
deriving DecidableEq, Repr

/-- The machine right after reset, for an instance with capacities `cfg`: the engine in `S0` (R35), no
access pending, nothing read. -/
def State.resetWith (cfg : Config) : State where
  engine := Engine.reset
  cfg := cfg
  pending := []
  replies := []

/-- The machine right after reset. Its capacities are a DESIGN CHOICE (log entry 1). -/
def State.reset : State := State.resetWith Config.atReset

end Sys2Proof.Machine
end

