-- ==== Sys2Proof/Machine/Operands.lean ====
section
/-! DEFINITION. What the operands of a command stand for, and how a digest is read as a sequence
(spec/30_encoding.md R78; spec/10_state.md R23). -/

namespace Sys2Proof

/-- The bit width `w` a mode stands for, `w = 8 + 8*M` (R78). -/
def Width.bits : Width → Nat
  | .w8 => 8
  | .w16 => 16

end Sys2Proof

namespace Sys2Proof.Machine

/-- A digest as a word sequence, `H0` first (R23, R139). -/
def Digest.words (d : Digest) : List Word := [d.h0, d.h1, d.h2, d.h3, d.h4]

/-- `D[n]`, the word at index `n` of a digest (R14). -/
def Digest.word (d : Digest) (n : Nat) : Word := d.words.getD n 0

end Sys2Proof.Machine
end

