-- ==== Sys2Proof/Machine/Codec.lean ====
section
/-! DEFINITION. The word codec (spec/41_word_codec.md R120 to R126): packing characters big-endian into
words, and its inverse. Both are total and reject nothing (R125). -/

namespace Sys2Proof.Machine

/-- `Mask(ch, w) = ch mod 2^w`: the low `w` bits of a character, as a word to be placed (R120). -/
def mask (ch : Character) (w : Width) : Word := BitVec.ofNat 32 (ch.toNat % 2 ^ w.bits)

/-- The left shift of character `k` inside its word: `32 - w - (k*w mod 32)` (R121). -/
def charShift (w : Width) (k : Nat) : Nat := 32 - w.bits - k * w.bits % 32

/-- OR character `k` into word `k*w div 32` of the stream (R121). -/
def placeChar (w : Width) (x : List Word) (k : Nat) (ch : Character) : List Word :=
  x.modify (k * w.bits / 32) (· ||| (mask ch w <<< charShift w k))

/-- `ceil(n*w / 32)`, the number of words `n` characters fill (R121). -/
def wordCount (n : Nat) (w : Width) : Nat := (n * w.bits + 31) / 32

/-- `Encode(text, w)`: every word starts at zero and the characters are OR-ed in from the first to the
last (R121). -/
def encodeText (text : Text) (w : Width) : List Word :=
  (List.range text.length).foldl (fun x k => placeChar w x k (text.getD k 0))
    (List.replicate (wordCount text.length w) 0)

/-- `BitLen(text, w) = len(text) * w` (R123). -/
def bitLen (text : Text) (w : Width) : Nat := text.length * w.bits

/-- Character `k` of `Decode(words, w)`: `(words[k*w div 32] >> (32 - w - (k*w mod 32))) mod 2^w`, the
value itself as the code (R124). -/
def decodedChar (words : List Word) (w : Width) (k : Nat) : Character :=
  BitVec.ofNat 16 ((words.getD (k * w.bits / 32) 0 >>> charShift w k).toNat % 2 ^ w.bits)

/-- `Decode(words, w)`: `len(words) * 32 / w` characters (R124). -/
def decodeWords (words : List Word) (w : Width) : Text :=
  (List.range (words.length * 32 / w.bits)).map (decodedChar words w)

end Sys2Proof.Machine
end

