-- ==== Sys2Proof/Machine/Flags.lean ====
section
/-! DEFINITION. The engine's two pieces of status, `DGV` and `ERR` (spec/10_state.md R24, R26, R33): the code
`ERR` holds, the STATUS view of both (R27), and the one operation that sets `DGV`. There are no arithmetic
flags (R33). -/

namespace Sys2Proof.Machine

/-- The number an error code is recorded as (R190). -/
def ErrorCode.code : ErrorCode → Nat
  | .eNone => 0
  | .eIllCmd => 1
  | .eCapacity => 2
  | .eNoDigest => 3

/-- STATUS: `STATUS[3:0] = ERR`, `STATUS[4] = DGV`, the rest zero; `zext_32(ERR) OR (DGV << 4)`
(R27, R51). -/
def Engine.status (S : Engine) : Word :=
  BitVec.ofNat 32 S.err.code ||| ((BitVec.ofBool S.dgv).setWidth 32 <<< 4)

/-- SHA1 and HMAC write all five words of `DG` at once and set `DGV` (R23, R24). -/
def Engine.setDigest (S : Engine) (d : Digest) : Engine := { S with dg := d, dgv := true }

end Sys2Proof.Machine
end

