-- ==== Sys2Proof/Machine/Ops.lean ====
section
/-! DEFINITION. The operations every command shares: raising an error and returning from one, the error
lock, and the replacement of `OUT` (spec/00_scope.md R15; spec/60_exceptions.md R190 to R198;
spec/44_output_encoders.md R178). -/

namespace Sys2Proof.Machine

/-- The state with another engine state; the host's side is as before. -/
def State.withEngine (s : State) (S : Engine) : State := { s with engine := S }

/-- `raise E_X`: set `ERR` and make no other change (R15, R198). This is the engine's taking of an
exception: nothing is saved and control goes nowhere, since there is none (R190). -/
def Engine.raise (S : Engine) (e : ErrorCode) : Engine := { S with err := e }

/-- The way back from an error, and the effect of reset: `S0` from any state (R102, R196, R210, R211). -/
def Engine.toReset (_ : Engine) : Engine := Engine.reset

/-- The error lock (R100, R195): while `ERR` is not 0 a command changes nothing; otherwise it has its
effect `f`. Every command but CLR runs through it. -/
def State.honour (s : State) (f : Engine → Engine) :
    Host.Outcome State Fault Refusal :=
  if s.engine.err = .eNone then .next (s.withEngine (f s.engine)) else .next s

/-- `OUT[i] = R[i]` for `i < len(R)` and 0 beyond (R178). -/
def outImage (r : Text) : Vector Character 40 :=
  ⟨((List.range 40).map fun i => r.getD i 0).toArray, by simp⟩

/-- The common behaviour of the four encoder commands with result string `r` (R178): `E_NODIGEST` when
`DGV = 0`, otherwise all 40 entries of `OUT` and `OUTLEN` are rewritten. -/
def Engine.emit (S : Engine) (r : Text) : Engine :=
  if S.dgv then { S with out := outImage r, outlen := r.length } else S.raise .eNoDigest

/-- Append a character to DATA, or `E_CAPACITY` when it holds `DATA_MAX` characters (R103). -/
def Engine.appendData (S : Engine) (cfg : Config) (ch : Character) : Engine :=
  if S.data.length = cfg.dataMax.val then S.raise .eCapacity else { S with data := S.data ++ [ch] }

/-- Append a character to KEY, or `E_CAPACITY` when it holds `KEY_MAX` characters (R104). -/
def Engine.appendKey (S : Engine) (cfg : Config) (ch : Character) : Engine :=
  if S.key.length = cfg.keyMax.val then S.raise .eCapacity else { S with key := S.key ++ [ch] }

end Sys2Proof.Machine
end

