-- ==== Sys2Proof/Machine/Compressor.lean ====
section
/-! DEFINITION. The SHA-1 compressor and the SHA1 command (spec/42_sha1_compressor.md R130 to R142). The
round uses `rotl32(a, 5)`: spec/90_conflicts.md C1 repairs the source's printed formula. The transient
registers of spec/10_state.md R28 are the values these functions pass on: `Digest` is `H0..H4`, `Working`
is `a..e`, the schedule is `W`, and the two folds step `t` and `blk`. -/

namespace Sys2Proof.Machine

/-! ## Arithmetic (spec/00_scope.md R9, R10) -/

/-- `add32(x, y) = (x + y) mod 2^32`, no carry kept (R9). -/
def add32 (x y : Word) : Word := x + y

/-- `rotl32(x, n)`, for `1 <= n <= 31` (R10). -/
def rotl32 (x : Word) (n : Nat) : Word := (x <<< n) ||| (x >>> (32 - n))

/-! ## Padding (R131, R132, R142) -/

/-- `nblocks = (L + 64) div 512 + 1` (R131). -/
def blockCount (bits : Nat) : Nat := (bits + 64) / 512 + 1

/-- `Pad(X, L)` (R131): `16 * nblocks` words, all zero but for `X` copied in front; then the terminator bit
OR-ed in after the last significant bit, the upper half of the length stored as zero (R142; 90_conflicts.md
C2) and the length in the last word. -/
def pad (x : List Word) (bits : Nat) : List Word :=
  let n := 16 * blockCount bits
  let copied := (List.range n).map fun i => x.getD i 0
  let terminated := copied.modify (bits / 32) (· ||| (0x80000000 >>> (bits % 32)))
  (terminated.set (n - 2) 0).set (n - 1) (BitVec.ofNat 32 bits)

/-! ## The block function (R133 to R138) -/

/-- `Init`, loaded into `H0..H4` at the start of every `Compress` (R133). -/
def initialValue : Digest := ⟨0x67452301, 0xEFCDAB89, 0x98BADCFE, 0x10325476, 0xC3D2E1F0⟩

/-- The next schedule word in front of the words so far, newest first:
`rotl32(W[j-3] XOR W[j-8] XOR W[j-14] XOR W[j-16], 1)` (R134). -/
def extendSchedule (newestFirst : List Word) : List Word :=
  rotl32 (newestFirst.getD 2 0 ^^^ newestFirst.getD 7 0 ^^^ newestFirst.getD 13 0 ^^^
    newestFirst.getD 15 0) 1 :: newestFirst

/-- `Schedule(B)`: the 16 words of the block, then 64 more computed in increasing `j` (R134). -/
def schedule (b : List Word) : List Word :=
  ((List.range 64).foldl (fun w _ => extendSchedule w) b.reverse).reverse

/-- `f(t, b, c, d)`, the round-dependent nonlinear function (R135). -/
def roundFunction (t : Nat) (b c d : Word) : Word :=
  if t < 20 then (b &&& c) ||| (~~~b &&& d)
  else if t < 40 then b ^^^ c ^^^ d
  else if t < 60 then (b &&& c) ||| (b &&& d) ||| (c &&& d)
  else b ^^^ c ^^^ d

/-- `k(t)`, the additive constant (R136). -/
def roundConstant (t : Nat) : Word :=
  if t < 20 then 0x5A827999
  else if t < 40 then 0x6ED9EBA1
  else if t < 60 then 0x8F1BBCDC
  else 0xCA62C1D6

/-- The five working registers `a..e` (R28). -/
structure Working where
  a : Word
  b : Word
  c : Word
  d : Word
  e : Word
deriving DecidableEq, Repr

/-- `T = add32(rotl32(a, 5), f(t, b, c, d), e, W[t], k(t))` (R137). -/
def roundSum (t : Nat) (r : Working) (w : Word) : Word :=
  add32 (add32 (add32 (add32 (rotl32 r.a 5) (roundFunction t r.b r.c r.d)) r.e) w) (roundConstant t)

/-- One round: `(a', b', c', d', e') = (T, a, rotl32(b, 30), c, d)`, all read before any is written
(R137). -/
def sha1Round (t : Nat) (r : Working) (w : Word) : Working :=
  ⟨roundSum t r w, r.a, rotl32 r.b 30, r.c, r.d⟩

/-- `Block(H, B)`: 80 rounds from the chaining value, which is then added back (R138). -/
def block (h : Digest) (b : List Word) : Digest :=
  let w := schedule b
  let r := (List.range 80).foldl (fun r t => sha1Round t r (w.getD t 0)) ⟨h.h0, h.h1, h.h2, h.h3, h.h4⟩
  ⟨add32 h.h0 r.a, add32 h.h1 r.b, add32 h.h2 r.c, add32 h.h3 r.d, add32 h.h4 r.e⟩

/-! ## The whole function and the command (R139, R140) -/

/-- `P[16*blk .. 16*blk + 15]` (R139). -/
def blockAt (p : List Word) (blk : Nat) : List Word := (p.drop (16 * blk)).take 16

/-- `Compress(X, L)` (R139). -/
def compress (x : List Word) (bits : Nat) : Digest :=
  let p := pad x bits
  (List.range (blockCount bits)).foldl (fun h blk => block h (blockAt p blk)) initialValue

/-- The SHA-1 digest of a text at a width, the value SHA1 computes (R140). -/
def sha1Text (text : Text) (w : Width) : Digest := compress (encodeText text w) (bitLen text w)

/-- SHA1 (R140). It cannot fail and writes only `DG` and `DGV`. -/
def execSha1 (w : Width) (s : State) : Host.Outcome State Fault Refusal :=
  s.honour fun S => S.setDigest (sha1Text S.data w)

end Sys2Proof.Machine
end

