-- ==== Sys2Proof/Machine/Control.lean ====
section
/-! DEFINITION. The control and input commands NOP, CLR, PUSHD and PUSHK (spec/40_control_input.md R101 to
R104). -/

namespace Sys2Proof.Machine

/-- NOP (R101). -/
def execNop (s : State) : Host.Outcome State Fault Refusal := s.honour id

/-- CLR (R102): the one command executed under error lock. -/
def execClr (s : State) : Host.Outcome State Fault Refusal := .next (s.withEngine s.engine.toReset)

/-- PUSHD (R103). -/
def execPushd (ch : Character) (s : State) : Host.Outcome State Fault Refusal :=
  s.honour fun S => S.appendData s.cfg ch

/-- PUSHK (R104). -/
def execPushk (ch : Character) (s : State) : Host.Outcome State Fault Refusal :=
  s.honour fun S => S.appendKey s.cfg ch

end Sys2Proof.Machine
end

