-- ==== Sys2Proof/Machine/Encoders.lean ====
section
/-! DEFINITION. The output encoders and their four commands HEX, B64, B64P and TXT
(spec/44_output_encoders.md R170 to R182). -/

namespace Sys2Proof.Machine

/-- `Bytes(D)`: the 20 digest bytes, most significant first within each word (R170). -/
def digestBytes (d : Digest) : List Nat :=
  (List.range 20).map fun n => (d.word (n / 4) >>> (8 * (3 - n % 4))).toNat % 256

/-- `n` consecutive character codes from `start` on. -/
def codeRun (start n : Nat) : Text := (List.range n).map fun i => BitVec.ofNat 16 (start + i)

/-- `HexTab(u)`: `0..9` at `0x30`, then `a..f` at `0x61` or `A..F` at `0x41` (R171). -/
def hexTable : HexCase → Text
  | .lower => codeRun 0x30 10 ++ codeRun 0x61 6
  | .upper => codeRun 0x30 10 ++ codeRun 0x41 6

/-- `ToHex(D, u)`: two digits for each byte, high nibble first (R172). -/
def toHex (d : Digest) (u : HexCase) : Text :=
  (digestBytes d).flatMap fun b => [(hexTable u).getD (b / 16) 0, (hexTable u).getD (b % 16) 0]

/-- `B64Tab`: `A..Z`, `a..z`, `0..9`, `+`, `/` (R173). -/
def base64Table : Text := codeRun 0x41 26 ++ codeRun 0x61 26 ++ codeRun 0x30 10 ++ [0x2B, 0x2F]

/-- The 24 bits of group `g`, bytes beyond the digest contributing zero (R174). -/
def tripletBits (b : List Nat) (g : Nat) : Nat :=
  (b.getD (3 * g) 0 <<< 16) ||| (b.getD (3 * g + 1) 0 <<< 8) ||| b.getD (3 * g + 2) 0

/-- Position `j` of group `g`: a character of the alphabet, or the pad (none for the empty string) when
its first source bit lies beyond the 160 bits of the digest (R174). -/
def base64Position (b : List Nat) (padding : Option Character) (g j : Nat) : Text :=
  if 24 * g + 6 * j ≥ 160 then padding.toList
  else [base64Table.getD ((tripletBits b g >>> (6 * (3 - j))) % 64) 0]

/-- `ToB64(D, pad)`: seven groups of four positions (R174). -/
def toBase64 (d : Digest) (padding : Option Character) : Text :=
  (List.range 7).flatMap fun g => (List.range 4).flatMap (base64Position (digestBytes d) padding g)

/-- `ToText(D, w) = Decode(D, w)` (R176). -/
def toText (d : Digest) (w : Width) : Text := decodeWords d.words w

/-- HEX (R179). -/
def execHex (u : HexCase) (s : State) : Host.Outcome State Fault Refusal :=
  s.honour fun S => S.emit (toHex S.dg u)

/-- B64, the empty pad (R180). -/
def execB64 (s : State) : Host.Outcome State Fault Refusal :=
  s.honour fun S => S.emit (toBase64 S.dg none)

/-- B64P, the pad character copied as given (R181). -/
def execB64p (ch : Character) (s : State) : Host.Outcome State Fault Refusal :=
  s.honour fun S => S.emit (toBase64 S.dg (some ch))

/-- TXT (R182). -/
def execTxt (w : Width) (s : State) : Host.Outcome State Fault Refusal :=
  s.honour fun S => S.emit (toText S.dg w)

end Sys2Proof.Machine
end

