-- ==== Sys2Proof/Machine/Hmac.lean ====
section
/-! DEFINITION. The HMAC wrapper and the HMAC command (spec/43_hmac.md R160 to R169). -/

namespace Sys2Proof.Machine

/-- `KW`: the encoded key, or the five words of its digest when it exceeds 16 words (R160, R161). -/
def keyWords (key : Text) (w : Width) : List Word :=
  let kw0 := encodeText key w
  if kw0.length > 16 then (compress kw0 (bitLen key w)).words else kw0

/-- `K16`: the key words zero-extended to exactly 16 (R163). -/
def keyBlock (kw : List Word) : List Word := (List.range 16).map fun i => kw.getD i 0

/-- `IPAD[i] = K16[i] XOR 0x36363636` (R164). -/
def ipad (k16 : List Word) : List Word := k16.map (· ^^^ 0x36363636)

/-- `OPAD[i] = K16[i] XOR 0x5C5C5C5C` (R164). -/
def opad (k16 : List Word) : List Word := k16.map (· ^^^ 0x5C5C5C5C)

/-- `INNER`: the inner pass (R165). -/
def innerDigest (k16 : List Word) (data : Text) (w : Width) : Digest :=
  compress (ipad k16 ++ encodeText data w) (512 + bitLen data w)

/-- `Hmac(key, data, w)`: the outer pass over the inner digest (R166). -/
def hmacText (key data : Text) (w : Width) : Digest :=
  let k16 := keyBlock (keyWords key w)
  compress (opad k16 ++ (innerDigest k16 data w).words) 672

/-- HMAC (R167). It cannot fail and writes only `DG` and `DGV`. -/
def execHmac (w : Width) (s : State) : Host.Outcome State Fault Refusal :=
  s.honour fun S => S.setDigest (hmacText S.key S.data w)

end Sys2Proof.Machine
end

