-- ==== Sys2Proof/Machine/Dispatch.lean ====
section
/-! DEFINITION. The execution of a legal command (spec/40_control_input.md R100): one arm per command. -/

namespace Sys2Proof.Machine

def exec (i : Instr) (s : State) : Host.Outcome State Fault Refusal :=
  match i with
  | .nop => Sys2Proof.Machine.execNop s
  | .clr => Sys2Proof.Machine.execClr s
  | .pushd ch => Sys2Proof.Machine.execPushd ch s
  | .pushk ch => Sys2Proof.Machine.execPushk ch s
  | .sha1 w => Sys2Proof.Machine.execSha1 w s
  | .hmac w => Sys2Proof.Machine.execHmac w s
  | .hex u => Sys2Proof.Machine.execHex u s
  | .b64 => Sys2Proof.Machine.execB64 s
  | .txt w => Sys2Proof.Machine.execTxt w s
  | .b64p ch => Sys2Proof.Machine.execB64p ch s

end Sys2Proof.Machine
end

