-- ==== Sys2Proof/Machine/HostRegisters.lean ====
section
/-! DEFINITION. The host register map (spec/20_memory.md R50 to R52, R57): what `Read(i)` returns. The
registers are views of the engine's state, not storage of their own. -/

namespace Sys2Proof.Machine

/-- `Read(i)` for an index of the register space (R51): CMD and the unmapped indices read as zero (R52). -/
def Engine.readRegister (S : Engine) (i : Nat) : Word :=
  if i = 0x01 then S.status
  else if i = 0x02 then BitVec.ofNat 32 S.key.length
  else if i = 0x03 then BitVec.ofNat 32 S.data.length
  else if i = 0x04 then BitVec.ofNat 32 S.outlen
  else if 0x08 ≤ i ∧ i ≤ 0x0C then S.dg.word (i - 0x08)
  else if 0x10 ≤ i ∧ i ≤ 0x37 then (S.out.toList.getD (i - 0x10) 0).setWidth 32
  else 0

end Sys2Proof.Machine
end

