-- ==== Sys2Proof/Machine/Command.lean ====
section
/-! DEFINITION. What each action of the host does (spec/20_memory.md R52, R53; spec/40_control_input.md R100;
spec/70_reset_and_hazards.md R210, R219): `Cmd`, the other writes, the reads and the reset event. -/

namespace Sys2Proof.Machine

/-- An illegal word: `E_ILLCMD`, ignored under error lock (R76, R100, R191). -/
def execIllegal (s : State) : Host.Outcome State Fault Refusal := s.honour fun S => S.raise .eIllCmd

/-- `Cmd(c)`, that is `Step(S, c)` (R100). The lock is inside the commands' meanings (`State.honour`). -/
def command (c : Word) (s : State) : Host.Outcome State Fault Refusal :=
  match decode32 c with
  | .ok i => exec i s
  | .error _ => execIllegal s

/-- `Write(i, v)`: to CMD it executes the word, to any other index it changes nothing and reports nothing
(R53). -/
def hostWrite (i : Nat) (v : Word) (s : State) : Host.Outcome State Fault Refusal :=
  if i < registerCount then (if i = cmdIndex then command v s else .next s)
  else .fault (.noSuchRegister i)

/-- `Read(i)`: the host gets the value, the engine is as before (R52). -/
def hostRead (i : Nat) (s : State) : Host.Outcome State Fault Refusal :=
  if i < registerCount then .next { s with replies := s.replies ++ [s.engine.readRegister i] }
  else .fault (.noSuchRegister i)

/-- The reset event: `S0` from any state (R210, R211). Accesses the host issues after it are still served,
and what it has read it keeps. -/
def hostReset (s : State) : Host.Outcome State Fault Refusal := .next (s.withEngine s.engine.toReset)

/-- Serve one action of the host. -/
def serve : HostEvent → State → Host.Outcome State Fault Refusal
  | .write i v, s => hostWrite i v s
  | .read i, s => hostRead i s
  | .reset, s => hostReset s

/-- One step: the oldest pending action is served to its end (R55, R58, R213); with none pending the
engine is idle and holds its state (R205). -/
def serveNext (s : State) : Host.Outcome State Fault Refusal :=
  match s.pending with
  | [] => .next s
  | e :: rest => serve e { s with pending := rest }

/-- Make `e` the action served next. -/
def State.issueFirst (s : State) (e : HostEvent) : State := { s with pending := e :: s.pending }

end Sys2Proof.Machine
end

