-- ==== Sys2Proof/Machine/Step.lean ====
section
/-! DEFINITION. The step of the machine. -/

namespace Sys2Proof.Machine

/-- One step of the machine: one action of the host, served whole. -/
def step (s : State) : Host.Outcome State Fault Refusal := serveNext s

/-- The engine fetches nothing (spec/10_state.md R32, spec/20_memory.md R60): a command is handed to it by
the host's write to CMD. The word is issued as the write the next step serves (log entry 3). -/
def State.withFetchWord (s : State) (nbits w : Nat) : State :=
  s.issueFirst (.write cmdIndex (tableWord nbits w))

end Sys2Proof.Machine
end

