-- ==== Sys2Proof/Machine/Pseudo.lean ====
section
/-! DEFINITION. The pseudo-instructions: named sequences of commands, and the host's whole call of one of
the source's functions (spec/30_encoding.md R80, R81, R82). They are the host's; the engine sees commands
only. -/

namespace Sys2Proof.Machine

/-- `PUSHDS s`: one PUSHD per character in order, nothing for the empty string (R80). -/
def pushds (text : Text) : List Instr := text.map .pushd

/-- `PUSHKS s` (R80). -/
def pushks (text : Text) : List Instr := text.map .pushk

/-- The form in which a digest is rendered: hex, base-64 with or without a pad, raw (R81). -/
inductive Rendering where
  | hex (u : HexCase)
  | base64 (padding : Option Character)
  | raw
deriving DecidableEq, Repr

/-- The encoder command of a rendering. The raw form uses the width of the hash (R81). -/
def Rendering.instr (w : Width) : Rendering → Instr
  | .hex u => .hex u
  | .base64 none => .b64
  | .base64 (some ch) => .b64p ch
  | .raw => .txt w

/-- The length of the result string (R81, R25). -/
def Rendering.length (w : Width) : Rendering → Nat
  | .hex _ => 40
  | .base64 none => 27
  | .base64 (some _) => 28
  | .raw => 160 / w.bits

/-- The two-command pseudo-instructions of R81: `SHA1HEX.w.x`, `SHA1B64.w`, `SHA1B64P.w ch`, `SHA1RAW.w`, and
the same four of HMAC. -/
inductive Pseudo where
  | sha1 (w : Width) (r : Rendering)
  | hmac (w : Width) (r : Rendering)
deriving DecidableEq, Repr

/-- The expansion of a pseudo-instruction (R81). -/
def Pseudo.expand : Pseudo → List Instr
  | .sha1 w r => [.sha1 w, r.instr w]
  | .hmac w r => [.hmac w, r.instr w]

/-- The length of a pseudo-instruction's result string. -/
def Pseudo.resultLength : Pseudo → Nat
  | .sha1 w r => r.length w
  | .hmac w r => r.length w

/-- The commands of a whole call: `CLR ; PUSHKS key ; PUSHDS text ;` the pseudo-instruction, the key only
for the HMAC functions (R81). -/
def Pseudo.call (p : Pseudo) (key text : Text) : List Instr :=
  match p with
  | .sha1 _ _ => .clr :: pushds text ++ p.expand
  | .hmac _ _ => .clr :: pushks key ++ pushds text ++ p.expand

/-- A command written to CMD (R53). -/
def commandWrite (i : Instr) : HostEvent := .write cmdIndex (encode i)

/-- The reads of `RD STATUS ; RD OUTLEN ; RD OUT0 .. RD OUT(n-1)` (R81). -/
def resultReads (n : Nat) : List HostEvent :=
  .read 0x01 :: .read 0x04 :: (List.range n).map fun i => .read (0x10 + i)

/-- The host's whole call of one of the source's functions, commands and reads (R81). -/
def Pseudo.hostCall (p : Pseudo) (key text : Text) : List HostEvent :=
  (p.call key text).map commandWrite ++ resultReads p.resultLength

/-- The codes of `a9993e364706816aba3e25717850c26c9cd0d89d`, the answer the self-test looks for (R82). -/
def selfTestAnswer : Text :=
  [0x61, 0x39, 0x39, 0x39, 0x33, 0x65, 0x33, 0x36, 0x34, 0x37, 0x30, 0x36, 0x38, 0x31, 0x36, 0x61,
   0x62, 0x61, 0x33, 0x65] ++
  [0x32, 0x35, 0x37, 0x31, 0x37, 0x38, 0x35, 0x30, 0x63, 0x32, 0x36, 0x63, 0x39, 0x63, 0x64, 0x30,
   0x64, 0x38, 0x39, 0x64]

/-- The host's events of `self_test`: the call of `sha1_hex("abc")` at the default configuration (R82). -/
def selfTestEvents : List HostEvent := (Pseudo.sha1 .w8 (.hex .lower)).hostCall [] [0x61, 0x62, 0x63]

/-- The host's verdict from what its reads returned: `STATUS[3:0] = 0`, `OUTLEN = 40` and the 40 codes
(R82). -/
def selfTestPasses : List Word → Bool
  | status :: outlen :: codes =>
    status &&& 0xF == 0 && outlen == 40 && codes == selfTestAnswer.map (·.setWidth 32)
  | _ => false

end Sys2Proof.Machine
end

