-- ==== Sys2Proof/Safety.lean ====
section
/-! DEFINITION. What counts as a safe run, and the invariant of the reachable states (spec/10_state.md R36;
spec/60_exceptions.md R207; spec/70_reset_and_hazards.md R218). -/

namespace Sys2Proof.Machine

/-- The engine has reported no error (R207: `ERR != 0` is the "gone wrong" predicate). -/
abbrev State.good (s : State) : Prop := s.engine.err = .eNone

/-- The run of `n` steps ends in a state with no error reported: it "has succeeded" (R218). -/
def SafeRun (n : Nat) (s : State) : Prop :=
  ∃ t : State, Sys2Proof.core.run n s = .next t ∧ t.good

/-- The invariant of R36, items (1) to (3). Item (4)'s range is the type of `ERR`; that a locked engine
stays as it is, and item (5), are statements about commands, not about a state. -/
structure State.Inv (s : State) : Prop where
  /-- (1) `len(KEY) <= KEY_MAX`. -/
  key_fits : s.engine.key.length ≤ s.cfg.keyMax.val
  /-- (1) `len(DATA) <= DATA_MAX`. -/
  data_fits : s.engine.data.length ≤ s.cfg.dataMax.val
  /-- (2) `OUTLEN` is one of 0, 10, 20, 27, 28, 40. -/
  outlen_legal : s.engine.outlen ∈ [0, 10, 20, 27, 28, 40]
  /-- (2) `OUT[i] = 0` for all `i >= OUTLEN`. -/
  out_tail_zero : ∀ i, s.engine.outlen ≤ i → s.engine.out.toList.getD i 0 = 0
  /-- (3) `DGV = 0` implies `DG[0..4]` are all zero. -/
  digest_zero : s.engine.dgv = false → s.engine.dg = Digest.zero
  /-- (3) `OUTLEN > 0` implies `DGV = 1`. -/
  out_has_digest : 0 < s.engine.outlen → s.engine.dgv = true

end Sys2Proof.Machine
end

