-- ==== Sys2Proof/Certificates/Slice0/Obligations.lean ====
section
/-! DEFINITION. The statements about the model that the provers prove. Each docstring names the rule of
spec/ the statement formalises. -/

namespace Sys2Proof.Machine

/-! ## Words the statements use -/

/-- `Step(S, c)` of R100 on the engine's state alone, every arm written out from the command rules
(R101 to R104, R140, R167, R178 to R182): what the machine is compared with. -/
def stepR100 (cfg : Config) (S : Engine) (c : Word) : Engine :=
  match decode32 c with
  | .ok .clr => Engine.reset
  | .error _ => if S.err ≠ .eNone then S else { S with err := .eIllCmd }
  | .ok .nop => S
  | .ok (.pushd ch) =>
    if S.err ≠ .eNone then S
    else if S.data.length = cfg.dataMax.val then { S with err := .eCapacity }
    else { S with data := S.data ++ [ch] }
  | .ok (.pushk ch) =>
    if S.err ≠ .eNone then S
    else if S.key.length = cfg.keyMax.val then { S with err := .eCapacity }
    else { S with key := S.key ++ [ch] }
  | .ok (.sha1 w) =>
    if S.err ≠ .eNone then S
    else { S with dg := compress (encodeText S.data w) (S.data.length * w.bits), dgv := true }
  | .ok (.hmac w) =>
    if S.err ≠ .eNone then S else { S with dg := hmacText S.key S.data w, dgv := true }
  | .ok (.hex u) => render S (toHex S.dg u)
  | .ok .b64 => render S (toBase64 S.dg none)
  | .ok (.b64p ch) => render S (toBase64 S.dg (some ch))
  | .ok (.txt w) => render S (toText S.dg w)
where
  /-- The common behaviour of the encoder commands, under the lock's test (R178). -/
  render (S : Engine) (r : Text) : Engine :=
    if S.err ≠ .eNone then S
    else if S.dgv then { S with out := Vector.ofFn fun i => r.getD i.val 0, outlen := r.length }
    else { S with err := .eNoDigest }

/-- `t` is `s` with the result string `r` in `OUT`, zeros after it, its length in `OUTLEN`, and nothing
else changed (R178). -/
def ResultIn (s t : State) (r : Text) : Prop :=
  t.engine.outlen = r.length ∧ (∀ i : Fin 40, t.engine.out[i] = r.getD i.val 0) ∧
    t = { s with engine := { s.engine with out := t.engine.out, outlen := t.engine.outlen } }

/-- The result string of a rendering of a digest (R81). -/
def Rendering.result (w : Width) (D : Digest) : Rendering → Text
  | .hex u => toHex D u
  | .base64 padding => toBase64 D padding
  | .raw => toText D w

/-- `m(k)` of R122 for 8-bit characters, as a word. -/
def lowByte (text : Text) (k : Nat) : Word := BitVec.ofNat 32 ((text.getD k 0).toNat % 256)

/-- `m(k)` of R122 for 16-bit characters, as a word. -/
def wholeChar (text : Text) (k : Nat) : Word := (text.getD k 0).setWidth 32

/-- The 160-bit string `D[0] D[1] D[2] D[3] D[4]` read as a number (R175). -/
def digestNumber (D : Digest) : Nat :=
  (((D.h0.toNat * 2 ^ 32 + D.h1.toNat) * 2 ^ 32 + D.h2.toNat) * 2 ^ 32 + D.h3.toNat) * 2 ^ 32 +
    D.h4.toNat

end Sys2Proof.Machine

open Sys2Proof Sys2Proof.Machine

/-! ## The command word -/

/-- Every instruction, with every operand at every value, decodes from its own word (R70 to R75). -/
def Obligations.DecodeOfEncodeIsIdentity : Prop :=
  ∀ i : Instr, decode32 (encode i) = .ok i

/-- A word that decodes is the word its instruction encodes to: no two words spell one instruction
(R70 to R75). -/
def Obligations.EncodeOfDecodeIsIdentity : Prop :=
  ∀ (c : Word) (i : Instr), decode32 c = .ok i → encode i = c

/-- `match` and `mask` of R74: a word spells the command of a row exactly when `(c AND mask) = match`. -/
def Obligations.OpcodeMapDecidesTheCommand : Prop :=
  ∀ r ∈ opcodeMap, ∀ c : Word,
    c &&& r.mask = r.pattern ↔ ∃ i, decode32 c = .ok i ∧ i.mnemonic = r.mnemonic

/-- In all there are 196619 legal command words (R74). -/
def Obligations.LegalCommandWordCount : Prop :=
  {c : Word | ∃ i, decode32 c = .ok i}.ncard = 196619

/-- The illegal words of R76, with the fields of R70 as numbers: an opcode other than the ten, a non-zero
RSV, `M = 1` in a format Z or C command, a non-zero IMM in a format Z or M command. -/
def Obligations.IllegalWordsAreExactlyThese : Prop :=
  ∀ c : Word, (∃ why, decode32 c = .error why) ↔
    c.toNat / 2 ^ 24 ∉ [0x00, 0x01, 0x02, 0x03, 0x10, 0x11, 0x20, 0x21, 0x22, 0x23] ∨
    c.toNat / 2 ^ 17 % 2 ^ 7 ≠ 0 ∨
    (c.toNat / 2 ^ 16 % 2 = 1 ∧ c.toNat / 2 ^ 24 ∈ [0x00, 0x01, 0x21, 0x02, 0x03, 0x23]) ∨
    (c.toNat % 2 ^ 16 ≠ 0 ∧ c.toNat / 2 ^ 24 ∈ [0x00, 0x01, 0x21, 0x10, 0x11, 0x20, 0x22])

/-- R191: a word that matches no row of the opcode map, written with `ERR = 0`, sets `ERR` to 1
(`E_ILLCMD`) and changes nothing else; the word is not recorded. -/
def Obligations.IllegalWordRaisesIllCmd : Prop :=
  ∀ (c : Word) (s : State), s.engine.err = .eNone → (∀ r ∈ opcodeMap, c &&& r.mask ≠ r.pattern) →
    command c s = .next { s with engine := { s.engine with err := .eIllCmd } }

/-- The command words of R79's table, for every character. -/
def Obligations.AssemblerWords : Prop :=
  encode .nop = 0x00000000 ∧ encode .clr = 0x01000000 ∧ encode .b64 = 0x21000000 ∧
  encode (.sha1 .w8) = 0x10000000 ∧ encode (.sha1 .w16) = 0x10010000 ∧
  encode (.hmac .w8) = 0x11000000 ∧ encode (.hmac .w16) = 0x11010000 ∧
  encode (.hex .lower) = 0x20000000 ∧ encode (.hex .upper) = 0x20010000 ∧
  encode (.txt .w8) = 0x22000000 ∧ encode (.txt .w16) = 0x22010000 ∧
  ∀ ch : Character, encode (.pushd ch) = 0x02000000 ||| ch.setWidth 32 ∧
    encode (.pushk ch) = 0x03000000 ||| ch.setWidth 32 ∧
    encode (.b64p ch) = 0x23000000 ||| ch.setWidth 32

/-- A few words decode as the table of 95_test_vectors.md section 7.1 says. -/
def Obligations.SampleWordsDecode : Prop :=
  decode32 0x0200FFFF = .ok (.pushd 0xFFFF) ∧ decode32 0x0300006B = .ok (.pushk 0x6B) ∧
  decode32 0x10010000 = .ok (.sha1 .w16) ∧ decode32 0x11000000 = .ok (.hmac .w8) ∧
  decode32 0x20010000 = .ok (.hex .upper) ∧ decode32 0x2300003D = .ok (.b64p 0x3D) ∧
  (decode32 0x02010061).toOption = none ∧ (decode32 0x21010000).toOption = none ∧
  (decode32 0x10020000).toOption = none ∧ (decode32 0x24000000).toOption = none

/-! ## The step -/

/-- A step runs the decoded command: when the oldest action of the host is a write of `c` to CMD and `c`
decodes to `i`, the step is `exec i` at the state without that action; a word issued through
`withFetchWord` is run so at once (R53, R58, R100; the list of actions is the model's, log entries 2
and 3). -/
def Obligations.StepRunsDecodedInstruction : Prop :=
  (∀ (s : State) (c : Word) (rest : List HostEvent) (i : Instr),
    s.pending = .write 0x00 c :: rest → decode32 c = .ok i →
      step s = exec i { s with pending := rest }) ∧
  ∀ (s : State) (w : Nat) (i : Instr),
    decodeTableWord 32 w = some i → step (s.withFetchWord 32 w) = exec i s

/-- With no action of the host pending the engine holds its state (R205; that this is a step is the
model's, log entry 2). -/
def Obligations.IdleStepHoldsState : Prop :=
  ∀ s : State, s.pending = [] → step s = .next s

/-- A step faults exactly when the oldest action names an index outside the 64 locations (R50; the fault
is the model's, log entry 4). -/
def Obligations.StepFaultsOnlyOutsideRegisterSpace : Prop :=
  ∀ (s : State) (f : Fault), step s = .fault f ↔
    ∃ i rest, f = .noSuchRegister i ∧ 0x3F < i ∧
      (s.pending = .read i :: rest ∨ ∃ v, s.pending = .write i v :: rest)

/-- `Step` always returns a state (R100): no command hangs, faults or is refused, whatever the word; and a
step whose oldest action is well formed answers a next state. -/
def Obligations.StepAlwaysReturnsAState : Prop :=
  (∀ (c : Word) (s : State), ∃ t, command c s = .next t) ∧
  ∀ s : State, (∀ e ∈ s.pending.head?, e.wellFormed = true) → ∃ t, step s = .next t

/-- Whatever a step does, the capacities stay, the action served leaves the list, and at most one value
is added to what the host has read (log entries 1 and 2). -/
def Obligations.StepHostSideFrame : Prop :=
  ∀ s t : State, step s = .next t →
    t.cfg = s.cfg ∧ t.pending = s.pending.tail ∧
      (t.replies = s.replies ∨ ∃ i v rest, s.pending = .read i :: rest ∧ t.replies = s.replies ++ [v])

/-- R100: `Cmd(c)` is `Step(S, c)`: for every word and every state it returns a state, the one the rule
gives, and nothing outside the engine changes. -/
def Obligations.CommandIsStepOfR100 : Prop :=
  ∀ (c : Word) (s : State),
    command c s = .next { s with engine := stepR100 s.cfg s.engine c }

/-- The machine refines R100: after the writes of any sequence of command words the engine's state is the
fold of `Step` over the words in order, and nothing else has changed (R58, R100). -/
def Obligations.CommandSequenceIsFoldOfStep : Prop :=
  ∀ (cs : List Word) (s : State),
    Sys2Proof.core.run cs.length { s with pending := cs.map (.write 0x00) } =
      .next { s with engine := cs.foldl (stepR100 s.cfg) s.engine, pending := [] }

/-! ## Reset and the invariant -/

/-- R35: the reset state, field by field, and its STATUS view. -/
def Obligations.ResetStateIsS0 : Prop :=
  State.reset.engine.key = [] ∧ State.reset.engine.data = [] ∧
  (∀ n < 5, State.reset.engine.dg.word n = 0x00000000) ∧ State.reset.engine.dgv = false ∧
  (∀ i : Fin 40, State.reset.engine.out[i] = 0x0000) ∧ State.reset.engine.outlen = 0 ∧
  State.reset.engine.err.code = 0 ∧ State.reset.engine.status = 0x00000000

/-- R210: the reset event puts the engine in `S0` from any state. That the pending actions and the replies
stay as they were is the model's choice (log entry 6). -/
def Obligations.ResetEventGivesS0 : Prop :=
  ∀ s : State, ∃ t, hostReset s = .next t ∧ t.engine = State.reset.engine ∧
    t = { s with engine := t.engine }

/-- The invariant of R36 holds after reset, whatever the capacities. -/
def Obligations.ResetHasInvariant : Prop :=
  ∀ cfg : Config, (State.resetWith cfg).Inv

/-- R36, items (1) to (3): every step keeps the invariant. -/
def Obligations.StepKeepsInvariant : Prop :=
  ∀ s t : State, s.Inv → step s = .next t → t.Inv

/-- R36, item (5): after HEX and B64 every `OUT[i]` is below 128, after TXT in 8-bit mode below 256. -/
def Obligations.ResultCharactersInRange : Prop :=
  ∀ s : State, s.engine.err = .eNone → s.engine.dgv = true →
    (∀ u, ∃ t, exec (.hex u) s = .next t ∧ ∀ i : Fin 40, (t.engine.out[i]).toNat < 128) ∧
    (∃ t, exec .b64 s = .next t ∧ ∀ i : Fin 40, (t.engine.out[i]).toNat < 128) ∧
    ∃ t, exec (.txt .w8) s = .next t ∧ ∀ i : Fin 40, (t.engine.out[i]).toNat < 256

/-! ## The host register space -/

/-- R53: `Write(0x00, c)` is `Cmd(c)`; a write to any other index, mapped or not, changes no state and
reports no error; and the engine's state changes only by a write to CMD or a reset. -/
def Obligations.OnlyCmdWritesAndResetChangeEngine : Prop :=
  (∀ (c : Word) (s : State), serve (.write 0x00 c) s = command c s) ∧
  (∀ (i : Nat) (v : Word) (s : State), i ≠ 0x00 → i ≤ 0x3F → serve (.write i v) s = .next s) ∧
  ∀ (e : HostEvent) (s t : State), serve e s = .next t → t.engine ≠ s.engine →
    e = .reset ∨ ∃ c, e = .write 0x00 c

/-- R51 and R52: what every register reads as, that a read changes no state of the engine, that CMD and the
unmapped indices read as zero, and that DGn without a digest and OUTi beyond `OUTLEN` read as zero (in
the states of R36). `replies` is where the model keeps what a read returns (log entry 2). -/
def Obligations.ReadReturnsTheRegisterMap : Prop :=
  (∀ (s : State) (i : Nat), i ≤ 0x3F →
    serve (.read i) s = .next { s with replies := s.replies ++ [s.engine.readRegister i] }) ∧
  (∀ S : Engine,
    S.readRegister 0x01 = BitVec.ofNat 32 (S.err.code + 16 * S.dgv.toNat) ∧
    S.readRegister 0x02 = BitVec.ofNat 32 S.key.length ∧
    S.readRegister 0x03 = BitVec.ofNat 32 S.data.length ∧
    S.readRegister 0x04 = BitVec.ofNat 32 S.outlen ∧
    (∀ n < 5, S.readRegister (0x08 + n) = S.dg.word n) ∧
    (∀ i : Fin 40, S.readRegister (0x10 + i.val) = (S.out[i]).setWidth 32) ∧
    ∀ i, (i = 0x00 ∨ 0x05 ≤ i ∧ i ≤ 0x07 ∨ 0x0D ≤ i ∧ i ≤ 0x0F ∨ 0x38 ≤ i ∧ i ≤ 0x3F) →
      S.readRegister i = 0x00000000) ∧
  ∀ s : State, s.Inv →
    (s.engine.dgv = false → ∀ n < 5, s.engine.readRegister (0x08 + n) = 0) ∧
    ∀ i < 40, s.engine.outlen ≤ i → s.engine.readRegister (0x10 + i) = 0

/-- R27: the bits of STATUS. -/
def Obligations.StatusBits : Prop :=
  ∀ S : Engine, (S.status.extractLsb' 0 4).toNat = S.err.code ∧ S.status.getLsbD 4 = S.dgv ∧
    S.status.extractLsb' 5 27 = 0

/-- The length registers read as the lengths themselves: the capacities of R6 keep them below `2^32`. -/
def Obligations.LengthRegistersAreExact : Prop :=
  ∀ s : State, s.Inv →
    (s.engine.readRegister 0x02).toNat = s.engine.key.length ∧
    (s.engine.readRegister 0x03).toNat = s.engine.data.length ∧
    (s.engine.readRegister 0x04).toNat = s.engine.outlen

/-- R62 as an isolation property: replace the contents of KEY and DATA, keeping their lengths. If no HMAC
is still to come unless both are as they were, and no SHA1 unless DATA is as it was, then every later run
returns the same values to the host and differs in nothing but those contents. -/
def Obligations.TextsReachHostOnlyThroughDigests : Prop :=
  ∀ (n : Nat) (s t : State) (k d : Text),
    k.length = s.engine.key.length → d.length = s.engine.data.length →
    (∀ c w, .write 0x00 c ∈ s.pending → decode32 c = .ok (.hmac w) →
      k = s.engine.key ∧ d = s.engine.data) →
    (∀ c w, .write 0x00 c ∈ s.pending → decode32 c = .ok (.sha1 w) → d = s.engine.data) →
    Sys2Proof.core.run n s = .next t →
    ∃ k' d' : Text, k'.length = t.engine.key.length ∧ d'.length = t.engine.data.length ∧
      Sys2Proof.core.run n { s with engine := { s.engine with key := k, data := d } } =
        .next { t with engine := { t.engine with key := k', data := d' } }

/-! ## Errors and the lock -/

/-- R190: with `ERR = 0`, exactly the causes of the table raise, each its own code, nothing else raises, and
a command that raises changes `ERR` and nothing else (R198). -/
def Obligations.ErrorCausesAndPrecision : Prop :=
  ErrorCode.eNone.code = 0 ∧ ErrorCode.eIllCmd.code = 1 ∧ ErrorCode.eCapacity.code = 2 ∧
  ErrorCode.eNoDigest.code = 3 ∧
  ∀ (c : Word) (s : State), s.engine.err = .eNone → ∃ t, command c s = .next t ∧
    (t.engine.err = .eIllCmd ↔ ∃ why, decode32 c = .error why) ∧
    (t.engine.err = .eCapacity ↔
      (∃ ch, decode32 c = .ok (.pushd ch)) ∧ s.engine.data.length = s.cfg.dataMax.val ∨
      (∃ ch, decode32 c = .ok (.pushk ch)) ∧ s.engine.key.length = s.cfg.keyMax.val) ∧
    (t.engine.err = .eNoDigest ↔ s.engine.dgv = false ∧
      ((∃ u, decode32 c = .ok (.hex u)) ∨ decode32 c = .ok .b64 ∨ (∃ w, decode32 c = .ok (.txt w)) ∨
        ∃ ch, decode32 c = .ok (.b64p ch))) ∧
    (t.engine.err ≠ .eNone → t = { s with engine := { s.engine with err := t.engine.err } })

/-- R195: under error lock every word but the exact CLR word changes no state, an illegal one too, and
reads work as usual (`replies` is where the model keeps what a read returns, log entry 2). -/
def Obligations.LockedEngineIgnoresAllButClr : Prop :=
  ∀ s : State, s.engine.err ≠ .eNone →
    (∀ c : Word, c ≠ 0x01000000 → command c s = .next s) ∧
    ∀ i ≤ 0x3F, hostRead i s = .next { s with replies := s.replies ++ [s.engine.readRegister i] }

/-- R196: CLR and reset are the only ways out of the lock, and both set the whole engine to `S0`. That the
actions pending behind a reset and the replies stay is the model's choice (log entry 6). -/
def Obligations.OnlyClrAndResetLeaveTheLock : Prop :=
  (∀ (e : HostEvent) (s t : State), s.engine.err ≠ .eNone → serve e s = .next t →
    t.engine.err = .eNone → e = .reset ∨ e = .write 0x00 0x01000000) ∧
  ∀ s : State, serve .reset s = .next { s with engine := Engine.reset } ∧
    serve (.write 0x00 0x01000000) s = .next { s with engine := Engine.reset }

/-! ## Control and input commands -/

/-- R101: NOP, the all-zero word, leaves any state as it is. -/
def Obligations.NopLeavesTheState : Prop :=
  ∀ s : State, exec .nop s = .next s ∧ command 0x00000000 s = .next s

/-- R102 and R211: CLR returns the engine to its reset state from any state, locked or not, as the reset
event does. That the actions pending behind a reset and the replies stay, as they do behind CLR, is the
model's choice (log entry 6). -/
def Obligations.ClrReturnsToReset : Prop :=
  ∀ s : State, exec .clr s = .next { s with engine := State.reset.engine } ∧
    command 0x01000000 s = .next { s with engine := State.reset.engine } ∧
    hostReset s = command 0x01000000 s

/-- R220: the state after `CLR ; p` from any state is the state after `p` from `S0`. -/
def Obligations.ClrMakesRunIndependent : Prop :=
  ∀ (s : State) (p : List Word),
    Sys2Proof.core.run (p.length + 1) { s with pending := (0x01000000 :: p).map (.write 0x00) } =
      Sys2Proof.core.run p.length { s with engine := Engine.reset, pending := p.map (.write 0x00) }

/-- R103: PUSHD appends the character, all 16 bits of it, or raises `E_CAPACITY` on a full buffer and stores
nothing; nothing else changes. -/
def Obligations.PushdAppendsOrRaisesCapacity : Prop :=
  ∀ (ch : Character) (s : State), encode (.pushd ch) = 0x02000000 ||| ch.setWidth 32 ∧
    (s.engine.err = .eNone →
      (s.engine.data.length = s.cfg.dataMax.val →
        exec (.pushd ch) s = .next { s with engine := { s.engine with err := .eCapacity } }) ∧
      (s.engine.data.length ≠ s.cfg.dataMax.val →
        exec (.pushd ch) s = .next { s with engine := { s.engine with data := s.engine.data ++ [ch] } }))

/-- R104: PUSHK appends the character to KEY, or raises `E_CAPACITY` on a full buffer and stores nothing;
nothing else changes; and the character pushed does not change a SHA1 result. -/
def Obligations.PushkAppendsOrRaisesCapacity : Prop :=
  ∀ (ch : Character) (s : State), encode (.pushk ch) = 0x03000000 ||| ch.setWidth 32 ∧
    (s.engine.err = .eNone →
      (s.engine.key.length = s.cfg.keyMax.val →
        exec (.pushk ch) s = .next { s with engine := { s.engine with err := .eCapacity } }) ∧
      (s.engine.key.length ≠ s.cfg.keyMax.val →
        exec (.pushk ch) s = .next { s with engine := { s.engine with key := s.engine.key ++ [ch] } }) ∧
      ∀ (w : Width) (t : State), exec (.sha1 w) s = .next t →
        ∃ t', exec (.sha1 w) { s with engine := { s.engine with key := s.engine.key ++ [ch] } } =
          .next t' ∧ t'.engine.dg = t.engine.dg)

/-! ## The word codec -/

/-- R122: `Encode` written out per width, every word of it and its length. -/
def Obligations.EncodePerWidth : Prop :=
  ∀ text : Text,
    (encodeText text .w8).length = (text.length + 3) / 4 ∧
    (∀ j, (encodeText text .w8).getD j 0 =
      (lowByte text (4 * j) <<< 24) ||| (lowByte text (4 * j + 1) <<< 16) |||
        (lowByte text (4 * j + 2) <<< 8) ||| lowByte text (4 * j + 3)) ∧
    (encodeText text .w16).length = (text.length + 1) / 2 ∧
    ∀ j, (encodeText text .w16).getD j 0 =
      (wholeChar text (2 * j) <<< 16) ||| wholeChar text (2 * j + 1)

/-- R126, item (1): encoding a decoded word sequence at the same width gives it back. -/
def Obligations.EncodeOfDecodeWords : Prop :=
  ∀ (x : List Word) (w : Width), encodeText (decodeWords x w) w = x

/-- R126, item (2): decoding an encoded text gives the text masked to `w` bits, then zero characters up to
the next whole word. -/
def Obligations.DecodeOfEncodeText : Prop :=
  ∀ (text : Text) (w : Width), decodeWords (encodeText text w) w =
    text.map (fun ch => BitVec.ofNat 16 (ch.toNat % 2 ^ w.bits)) ++
      List.replicate ((32 / w.bits - text.length % (32 / w.bits)) % (32 / w.bits)) 0

/-- R126, item (4): in 8-bit mode two texts that differ only in high bytes have the same digest. -/
def Obligations.HighBytesDoNotMatterAt8 : Prop :=
  ∀ text text' : Text,
    text.map (fun ch => ch.toNat % 256) = text'.map (fun ch => ch.toNat % 256) →
      sha1Text text .w8 = sha1Text text' .w8

/-! ## The compressor -/

/-- R10: `rotl32` is the formula given and the circular left rotate: bit `i` becomes bit `(i + n) mod 32`. -/
def Obligations.RotateIsCircular : Prop :=
  ∀ (x : Word) (n : Nat), 1 ≤ n → n ≤ 31 →
    (rotl32 x n).toNat = ((x.toNat <<< n) % 2 ^ 32 ||| (x.toNat >>> (32 - n))) ∧
    ∀ i < 32, (rotl32 x n).getLsbD ((i + n) % 32) = x.getLsbD i

/-- R131: the padded word sequence, word by word: its length, the message, the terminator after its last
bit, zero fill, and the two length words, which neither of the former reaches. -/
def Obligations.PadLayout : Prop :=
  ∀ (x : List Word) (L : Nat), L < 2 ^ 32 → x.length = (L + 31) / 32 →
    (pad x L).length = 16 * ((L + 64) / 512 + 1) ∧
    (∀ i < 16 * ((L + 64) / 512 + 1) - 2, (pad x L).getD i 0 =
      x.getD i 0 ||| (if i = L / 32 then 0x80000000 >>> (L % 32) else 0)) ∧
    (pad x L).getD (16 * ((L + 64) / 512 + 1) - 2) 0 = 0 ∧
    ((pad x L).getD (16 * ((L + 64) / 512 + 1) - 1) 0).toNat = L ∧
    L / 32 ≤ 16 * ((L + 64) / 512 + 1) - 3 ∧ x.length ≤ 16 * ((L + 64) / 512 + 1) - 2

/-- R132: the number of blocks is the least that holds the message, the terminator and the length; one more
block, its first 14 words zero, when `r = L mod 512` is 448 or more; and the boundaries in characters. -/
def Obligations.BlockCountBoundaries : Prop :=
  (∀ L, L + 65 ≤ 512 * blockCount L ∧ (∀ n, L + 65 ≤ 512 * n → blockCount L ≤ n) ∧
    (L % 512 ≤ 447 → blockCount L = L / 512 + 1) ∧ (448 ≤ L % 512 → blockCount L = L / 512 + 2)) ∧
  (∀ (x : List Word) (L : Nat), L < 2 ^ 32 → x.length = (L + 31) / 32 → 448 ≤ L % 512 →
    ∀ i < 14, (pad x L).getD (16 * (blockCount L - 1) + i) 0 = 0) ∧
  ∀ text : Text,
    (blockCount (bitLen text .w8) = 1 ↔ text.length ≤ 55) ∧
    (blockCount (bitLen text .w8) = 2 ↔ 56 ≤ text.length ∧ text.length ≤ 119) ∧
    (blockCount (bitLen text .w8) = 3 ↔ 120 ≤ text.length ∧ text.length ≤ 183) ∧
    (blockCount (bitLen text .w16) = 1 ↔ text.length ≤ 27) ∧
    (blockCount (bitLen text .w16) = 2 ↔ 28 ≤ text.length ∧ text.length ≤ 59)

/-- R134: the schedule of a block, word by word. -/
def Obligations.ScheduleRecurrence : Prop :=
  ∀ b : List Word, b.length = 16 →
    (schedule b).length = 80 ∧ (∀ j < 16, (schedule b).getD j 0 = b.getD j 0) ∧
    ∀ j, 16 ≤ j → j < 80 → (schedule b).getD j 0 =
      rotl32 ((schedule b).getD (j - 3) 0 ^^^ (schedule b).getD (j - 8) 0 ^^^
        (schedule b).getD (j - 14) 0 ^^^ (schedule b).getD (j - 16) 0) 1

/-- R135: the nonlinear function by its table and bit by bit: choose, parity, majority, parity. -/
def Obligations.RoundFunctionBitByBit : Prop :=
  ∀ (t : Nat) (b c d : Word), t < 80 →
    (t ≤ 19 → roundFunction t b c d = ((b &&& c) ||| (~~~b &&& d)) ∧
      ∀ i < 32, (roundFunction t b c d).getLsbD i = if b.getLsbD i then c.getLsbD i else d.getLsbD i) ∧
    (40 ≤ t ∧ t ≤ 59 → roundFunction t b c d = ((b &&& c) ||| (b &&& d) ||| (c &&& d)) ∧
      ∀ i < 32, (roundFunction t b c d).getLsbD i =
        decide (2 ≤ (b.getLsbD i).toNat + (c.getLsbD i).toNat + (d.getLsbD i).toNat)) ∧
    (20 ≤ t ∧ t ≤ 39 ∨ 60 ≤ t → roundFunction t b c d = b ^^^ c ^^^ d ∧
      ∀ i < 32, (roundFunction t b c d).getLsbD i =
        decide (((b.getLsbD i).toNat + (c.getLsbD i).toNat + (d.getLsbD i).toNat) % 2 = 1))

/-- R136 and R137: one round, the new value of `a` as a sum of five numbers modulo `2^32`, and the other
four registers moved. -/
def Obligations.RoundStep : Prop :=
  ∀ (t : Nat) (r : Working) (w : Word), t < 80 →
    (sha1Round t r w).a.toNat =
      ((rotl32 r.a 5).toNat + (roundFunction t r.b r.c r.d).toNat + r.e.toNat + w.toNat +
        (if t ≤ 19 then 0x5A827999 else if t ≤ 39 then 0x6ED9EBA1
          else if t ≤ 59 then 0x8F1BBCDC else 0xCA62C1D6)) % 2 ^ 32 ∧
    (sha1Round t r w).b = r.a ∧ (sha1Round t r w).c = rotl32 r.b 30 ∧
    (sha1Round t r w).d = r.c ∧ (sha1Round t r w).e = r.d

/-- R138: `Block(H, B)` seeds the working registers from `H`, runs the rounds 0 to 79 over the schedule of
`B`, and adds the pre-block registers back modulo `2^32`. The registers are given round by round: `r t` is
what round `t` starts from. -/
def Obligations.BlockRunsEightyRounds : Prop :=
  ∀ (h : Digest) (b : List Word), b.length = 16 →
    ∃ r : Nat → Working,
      r 0 = { a := h.h0, b := h.h1, c := h.h2, d := h.h3, e := h.h4 } ∧
      (∀ t < 80, r (t + 1) = sha1Round t (r t) ((schedule b).getD t 0)) ∧
      (block h b).h0.toNat = (h.h0.toNat + (r 80).a.toNat) % 2 ^ 32 ∧
      (block h b).h1.toNat = (h.h1.toNat + (r 80).b.toNat) % 2 ^ 32 ∧
      (block h b).h2.toNat = (h.h2.toNat + (r 80).c.toNat) % 2 ^ 32 ∧
      (block h b).h3.toNat = (h.h3.toNat + (r 80).d.toNat) % 2 ^ 32 ∧
      (block h b).h4.toNat = (h.h4.toNat + (r 80).e.toNat) % 2 ^ 32

/-- R139, with the five words of R133 written out: `Compress(X, L)` starts from them, applies Block to each
16-word block of `Pad(X, L)` in order, and the five final registers are the digest, `H0` first. The chaining
registers are given block by block: `H blk` is what block `blk` starts from. -/
def Obligations.CompressRunsEveryBlock : Prop :=
  ∀ (x : List Word) (L : Nat), L < 2 ^ 32 → x.length = (L + 31) / 32 →
    let nblocks := (L + 64) / 512 + 1
    (pad x L).length = 16 * nblocks ∧
    ∃ H : Nat → Digest,
      H 0 = { h0 := 0x67452301, h1 := 0xEFCDAB89, h2 := 0x98BADCFE, h3 := 0x10325476, h4 := 0xC3D2E1F0 } ∧
      (∀ blk < nblocks,
        H (blk + 1) = block (H blk) ((List.range 16).map fun j => (pad x L).getD (16 * blk + j) 0)) ∧
      compress x L = H nblocks ∧
      (compress x L).words =
        [(H nblocks).h0, (H nblocks).h1, (H nblocks).h2, (H nblocks).h3, (H nblocks).h4]

/-- Every bit length the engine forms is below `2^32` (R206), so the length word of the padding is exact. -/
def Obligations.BitLengthsFitTheLengthWord : Prop :=
  ∀ (s : State) (w : Width), s.Inv →
    bitLen s.engine.key w < 2 ^ 32 ∧ bitLen s.engine.data w < 2 ^ 32 ∧
      512 + bitLen s.engine.data w < 2 ^ 32

/-- R140: SHA1 writes the digest of the DATA text and sets `DGV`; it cannot fail and writes nothing else. -/
def Obligations.Sha1WritesTheDigest : Prop :=
  ∀ (w : Width) (s : State), s.engine.err = .eNone →
    exec (.sha1 w) s = .next { s with engine := { s.engine with
      dg := compress (encodeText s.engine.data w) (s.engine.data.length * w.bits), dgv := true } }

/-! ## The HMAC wrapper -/

/-- R162: the key is hashed exactly from 65 characters on in 8-bit mode and from 33 on in 16-bit mode, and
a key so long gives the same result as the key whose characters are its digest. -/
def Obligations.LongKeyIsItsDigest : Prop :=
  ∀ key data : Text,
    ((encodeText key .w8).length > 16 ↔ 65 ≤ key.length) ∧
    ((encodeText key .w16).length > 16 ↔ 33 ≤ key.length) ∧
    ∀ w : Width, 512 < key.length * w.bits →
      hmacText key data w =
        hmacText (toText (compress (encodeText key w) (key.length * w.bits)) w) data w

/-- R163: the key words never exceed 16, and the key block is the key words followed by zero words. -/
def Obligations.KeyBlockIsZeroExtendedKey : Prop :=
  ∀ (key : Text) (w : Width), (keyWords key w).length ≤ 16 ∧
    keyBlock (keyWords key w) =
      keyWords key w ++ List.replicate (16 - (keyWords key w).length) 0x00000000 ∧
    (keyBlock (keyWords key w)).length = 16

/-- R169: HMAC through the block function. -/
def Obligations.HmacThroughBlocks : Prop :=
  ∀ (key data : Text) (w : Width),
    let k16 := keyBlock (keyWords key w)
    let L := 512 + data.length * w.bits
    let p := pad (ipad k16 ++ encodeText data w) L
    innerDigest k16 data w =
      (List.range' 1 (blockCount L - 1)).foldl (fun h blk => block h (blockAt p blk))
        (block initialValue (ipad k16)) ∧
    hmacText key data w = block (block initialValue (opad k16))
      ((innerDigest k16 data w).words ++ [0x80000000, 0, 0, 0, 0, 0, 0, 0, 0, 0, 0x000002A0])

/-- R167: HMAC writes the HMAC of DATA under KEY, as R160 to R166 compute it, and sets `DGV`; it cannot fail
and writes nothing else. -/
def Obligations.HmacWritesTheDigest : Prop :=
  ∀ (w : Width) (s : State), s.engine.err = .eNone →
    let kw0 := encodeText s.engine.key w
    let kw := if 16 < kw0.length then (compress kw0 (s.engine.key.length * w.bits)).words else kw0
    let ipadBlock := (List.range 16).map fun i => kw.getD i 0 ^^^ 0x36363636
    let opadBlock := (List.range 16).map fun i => kw.getD i 0 ^^^ 0x5C5C5C5C
    let inner := compress (ipadBlock ++ encodeText s.engine.data w) (512 + s.engine.data.length * w.bits)
    exec (.hmac w) s = .next { s with engine := { s.engine with
      dg := compress (opadBlock ++ [inner.h0, inner.h1, inner.h2, inner.h3, inner.h4]) 672,
      dgv := true } }

/-! ## The output encoders -/

/-- R178: each encoder command, with a digest, puts its result string in `OUT` with zeros after it and its
length in `OUTLEN`, and changes nothing else; without one it raises `E_NODIGEST`. -/
def Obligations.EncodersWriteTheResult : Prop :=
  ∀ (s : State) (u : HexCase) (w : Width) (ch : Character), s.engine.err = .eNone →
    (s.engine.dgv = true →
      (∃ t, exec (.hex u) s = .next t ∧ ResultIn s t (toHex s.engine.dg u)) ∧
      (∃ t, exec .b64 s = .next t ∧ ResultIn s t (toBase64 s.engine.dg none)) ∧
      (∃ t, exec (.b64p ch) s = .next t ∧ ResultIn s t (toBase64 s.engine.dg (some ch))) ∧
      ∃ t, exec (.txt w) s = .next t ∧ ResultIn s t (toText s.engine.dg w)) ∧
    (s.engine.dgv = false → ∀ i ∈ [Instr.hex u, .b64, .b64p ch, .txt w],
      exec i s = .next { s with engine := { s.engine with err := .eNoDigest } })

/-- The `OUTLEN` each encoder command leaves (R25, R179 to R182). -/
def Obligations.ResultLengths : Prop :=
  ∀ (D : Digest) (u : HexCase) (ch : Character),
    (toHex D u).length = 40 ∧ (toBase64 D none).length = 27 ∧ (toBase64 D (some ch)).length = 28 ∧
      (toText D .w8).length = 20 ∧ (toText D .w16).length = 10

/-- R171 and R172: character `m` of the hex rendering is the digit of nibble `m` of the digest, most
significant first. -/
def Obligations.HexDigits : Prop :=
  ∀ (D : Digest) (u : HexCase) (m : Nat), m < 40 →
    let v := (D.word (m / 8)).toNat / 2 ^ (28 - 4 * (m % 8)) % 16
    ((toHex D u).getD m 0).toNat =
      if v < 10 then 0x30 + v else (match u with | .lower => 0x61 | .upper => 0x41) + (v - 10)

/-- The two cases agree exactly where the nibble is below 10 (R179). -/
def Obligations.HexCasesDifferOnlyInLetters : Prop :=
  ∀ (D : Digest) (m : Nat), m < 40 →
    ((toHex D .lower).getD m 0 = (toHex D .upper).getD m 0 ↔
      (D.word (m / 8)).toNat / 2 ^ (28 - 4 * (m % 8)) % 16 < 10)

/-- R173 and R175: character `q` of the base-64 rendering is the alphabet's character for bits `6q` to
`6q + 5` of the 160-bit digest extended with two zero bits; the padded form is the unpadded one and then
the pad character. -/
def Obligations.Base64SixBitGroups : Prop :=
  ∀ D : Digest,
    (∀ q < 27, let v := digestNumber D * 4 / 2 ^ (6 * (26 - q)) % 64
      ((toBase64 D none).getD q 0).toNat =
        if v < 26 then 0x41 + v else if v < 52 then 0x61 + (v - 26)
        else if v < 62 then 0x30 + (v - 52) else if v = 62 then 0x2B else 0x2F) ∧
    (toBase64 D none).length = 27 ∧
    ∀ ch : Character, toBase64 D (some ch) = toBase64 D none ++ [ch]

/-- R176: the raw rendering is the 20 digest bytes in 8-bit mode and the ten halves of the words, upper
half first, in 16-bit mode. -/
def Obligations.TextCharacters : Prop :=
  ∀ D : Digest,
    toText D .w8 = (digestBytes D).map (BitVec.ofNat 16) ∧ (toText D .w8).length = 20 ∧
    (toText D .w16).length = 10 ∧
    ∀ k < 10, ((toText D .w16).getD k 0).toNat =
        (digestBytes D).getD (2 * k) 0 * 256 + (digestBytes D).getD (2 * k + 1) 0 ∧
      (toText D .w16).getD k 0 = if k % 2 = 0 then (D.word (k / 2)).extractLsb' 16 16
        else (D.word (k / 2)).extractLsb' 0 16

/-- The source's round trip (95_test_vectors.md X7; R126): what TXT leaves in `OUT[0..OUTLEN-1]`, encoded
again at the same width, is the digest. -/
def Obligations.ReencodingTxtGivesTheDigest : Prop :=
  ∀ (w : Width) (s : State), s.engine.err = .eNone → s.engine.dgv = true →
    ∃ t, exec (.txt w) s = .next t ∧
      encodeText (t.engine.out.toList.take t.engine.outlen) w =
        [s.engine.dg.h0, s.engine.dg.h1, s.engine.dg.h2, s.engine.dg.h3, s.engine.dg.h4]

/-! ## Whole calls -/

/-- R81: from any state, locked or not, the host's whole call of `sha1_hex`, `sha1_base64` or `sha1_raw` on
any text that fits succeeds, and the host reads `ERR = 0`, the length and the rendering of the SHA-1
digest of the text. -/
def Obligations.Sha1CallReturnsTheRendering : Prop :=
  ∀ (s : State) (w : Width) (r : Rendering) (text : Text), text.length ≤ s.cfg.dataMax.val →
    let call := (Pseudo.sha1 w r).hostCall [] text
    let D := compress (encodeText text w) (text.length * w.bits)
    ∃ t, Sys2Proof.core.run call.length { s with pending := call } = .next t ∧ t.good ∧
      t.engine.data = text ∧ t.engine.dg = D ∧ t.engine.outlen = (r.result w D).length ∧
      t.replies = s.replies ++ (0x00000010 :: BitVec.ofNat 32 (r.length w) ::
        (r.result w D).map (·.setWidth 32)) ∧ t.pending = []

/-- R81: the same of `hmac_sha1_hex`, `hmac_sha1_base64` and `hmac_sha1_raw`, for any key and text that
fit. -/
def Obligations.HmacCallReturnsTheRendering : Prop :=
  ∀ (s : State) (w : Width) (r : Rendering) (key text : Text), key.length ≤ s.cfg.keyMax.val →
    text.length ≤ s.cfg.dataMax.val →
    let call := (Pseudo.hmac w r).hostCall key text
    let D := hmacText key text w
    ∃ t, Sys2Proof.core.run call.length { s with pending := call } = .next t ∧ t.good ∧
      t.engine.key = key ∧ t.engine.data = text ∧ t.engine.dg = D ∧
      t.engine.outlen = (r.result w D).length ∧
      t.replies = s.replies ++ (0x00000010 :: BitVec.ofNat 32 (r.length w) ::
        (r.result w D).map (·.setWidth 32)) ∧ t.pending = []
end

