-- ==== Sys2Proof/Laws/Codec.lean ====
section
/-! SUPPORT. The word codec: lengths, and one character at a time. -/

namespace Sys2Proof.Machine

@[simp] theorem placeChar_length (w : Width) (x : List Word) (k : Nat) (ch : Character) :
    (placeChar w x k ch).length = x.length := by simp [placeChar]

/-- OR-ing characters in keeps the number of words. -/
theorem length_foldl_placeChar (w : Width) (text : Text) (ks : List Nat) (x : List Word) :
    (ks.foldl (fun x k => placeChar w x k (text.getD k 0)) x).length = x.length := by
  induction ks generalizing x with
  | nil => rfl
  | cons k ks ih => rw [List.foldl_cons, ih, placeChar_length]

/-- Placing character `k` changes the one word it falls into (R121). -/
theorem getD_placeChar (w : Width) (x : List Word) (k : Nat) (ch : Character) {j : Nat}
    (hj : j < x.length) :
    (placeChar w x k ch).getD j 0 =
      if k * w.bits / 32 = j then x.getD j 0 ||| (mask ch w <<< charShift w k) else x.getD j 0 := by
  simp only [placeChar, List.getD_eq_getElem?_getD, List.getElem?_modify, List.getElem?_eq_getElem hj]
  split <;> rfl

/-- Word `j` collects the characters that fall into it, in order. -/
theorem getD_foldl_placeChar (w : Width) (text : Text) (ks : List Nat) (x : List Word) {j : Nat}
    (hj : j < x.length) :
    (ks.foldl (fun x k => placeChar w x k (text.getD k 0)) x).getD j 0 =
      ks.foldl (fun acc k => if k * w.bits / 32 = j then
        acc ||| (mask (text.getD k 0) w <<< charShift w k) else acc) (x.getD j 0) := by
  induction ks generalizing x with
  | nil => rfl
  | cons k ks ih =>
    rw [List.foldl_cons, List.foldl_cons, ih _ (by rwa [placeChar_length]), getD_placeChar _ _ _ _ hj]

@[simp] theorem length_encodeText (text : Text) (w : Width) :
    (encodeText text w).length = wordCount text.length w := by
  rw [encodeText, length_foldl_placeChar, List.length_replicate]

@[simp] theorem encodeText_nil (w : Width) : encodeText [] w = [] := by cases w <;> rfl

@[simp] theorem length_decodeWords (x : List Word) (w : Width) :
    (decodeWords x w).length = x.length * 32 / w.bits := by simp [decodeWords]

theorem decodeWords_getElem (x : List Word) (w : Width) (k : Nat) (h : k < (decodeWords x w).length) :
    (decodeWords x w)[k] = decodedChar x w k := by simp [decodeWords]

theorem toNat_mask (ch : Character) (w : Width) : (mask ch w).toNat = ch.toNat % 2 ^ w.bits := by
  cases w <;> simp [mask, Width.bits] <;> omega

end Sys2Proof.Machine
end

