-- ==== Sys2Proof/Laws/Compressor.lean ====
section
/-! SUPPORT. The compressor: lengths of the padded message and of the schedule, and one step of its two folds
(spec/42_sha1_compressor.md R131, R134, R138, R139). -/

namespace Sys2Proof.Machine

@[simp] theorem length_pad (x : List Word) (bits : Nat) : (pad x bits).length = 16 * blockCount bits := by
  simp [pad]

@[simp] theorem length_extendSchedule (w : List Word) : (extendSchedule w).length = w.length + 1 := by
  simp [extendSchedule]

theorem length_foldl_extendSchedule (ks : List Nat) (w : List Word) :
    (ks.foldl (fun w _ => extendSchedule w) w).length = w.length + ks.length := by
  induction ks generalizing w with
  | nil => rfl
  | cons k ks ih => simp [ih]; omega

@[simp] theorem length_schedule (b : List Word) : (schedule b).length = b.length + 64 := by
  simp [schedule, length_foldl_extendSchedule]

theorem blockCount_pos (bits : Nat) : 0 < blockCount bits := by simp [blockCount]

/-- A whole block of the padded message has 16 words. -/
theorem length_blockAt {p : List Word} {blk : Nat} (h : 16 * (blk + 1) ≤ p.length) :
    (blockAt p blk).length = 16 := by
  simp [blockAt]
  omega

/-- The words of a whole block are the 16 words of the message from `16*blk` on (R139). -/
theorem blockAt_eq_map {p : List Word} {blk : Nat} (h : 16 * (blk + 1) ≤ p.length) :
    blockAt p blk = (List.range 16).map fun j => p.getD (16 * blk + j) 0 := by
  apply List.ext_getElem (by simp [length_blockAt h])
  intro j hj hj'
  have hj16 : j < 16 := by simpa using hj'
  simp [blockAt, List.getElem?_eq_getElem (show 16 * blk + j < p.length by omega)]

/-- One more round: what the 80 rounds are a fold of (R138). -/
theorem foldl_rounds_succ (w : List Word) (r : Working) (n : Nat) :
    (List.range (n + 1)).foldl (fun r t => sha1Round t r (w.getD t 0)) r =
      sha1Round n ((List.range n).foldl (fun r t => sha1Round t r (w.getD t 0)) r) (w.getD n 0) := by
  simp [List.range_succ]

/-- One more block: what `Compress` is a fold of (R139). -/
theorem foldl_blocks_succ (p : List Word) (h : Digest) (n : Nat) :
    (List.range (n + 1)).foldl (fun h blk => block h (blockAt p blk)) h =
      block ((List.range n).foldl (fun h blk => block h (blockAt p blk)) h) (blockAt p n) := by
  simp [List.range_succ]

theorem length_pad_blockAt (x : List Word) (bits blk : Nat) (h : blk < blockCount bits) :
    (blockAt (pad x bits) blk).length = 16 :=
  length_blockAt (by rw [length_pad]; omega)

end Sys2Proof.Machine
end

