-- ==== Sys2Proof/Laws/State.lean ====
section
/-! SUPPORT. One lemma for each field under each update of the state, so that no later proof unfolds a
record update. -/

namespace Sys2Proof.Machine

section WithEngine

variable (s : State) (S : Engine)

@[simp] theorem State.withEngine_engine : (s.withEngine S).engine = S := rfl
@[simp] theorem State.withEngine_cfg : (s.withEngine S).cfg = s.cfg := rfl
@[simp] theorem State.withEngine_pending : (s.withEngine S).pending = s.pending := rfl
@[simp] theorem State.withEngine_replies : (s.withEngine S).replies = s.replies := rfl
@[simp] theorem State.withEngine_self : s.withEngine s.engine = s := rfl
@[simp] theorem State.withEngine_withEngine (S' : Engine) :
    (s.withEngine S).withEngine S' = s.withEngine S' := rfl

end WithEngine

section Raise

variable (S : Engine) (e : ErrorCode)

@[simp] theorem Engine.raise_key : (S.raise e).key = S.key := rfl
@[simp] theorem Engine.raise_data : (S.raise e).data = S.data := rfl
@[simp] theorem Engine.raise_dg : (S.raise e).dg = S.dg := rfl
@[simp] theorem Engine.raise_dgv : (S.raise e).dgv = S.dgv := rfl
@[simp] theorem Engine.raise_out : (S.raise e).out = S.out := rfl
@[simp] theorem Engine.raise_outlen : (S.raise e).outlen = S.outlen := rfl
@[simp] theorem Engine.raise_err : (S.raise e).err = e := rfl

end Raise

section SetDigest

variable (S : Engine) (d : Digest)

@[simp] theorem Engine.setDigest_key : (S.setDigest d).key = S.key := rfl
@[simp] theorem Engine.setDigest_data : (S.setDigest d).data = S.data := rfl
@[simp] theorem Engine.setDigest_dg : (S.setDigest d).dg = d := rfl
@[simp] theorem Engine.setDigest_dgv : (S.setDigest d).dgv = true := rfl
@[simp] theorem Engine.setDigest_out : (S.setDigest d).out = S.out := rfl
@[simp] theorem Engine.setDigest_outlen : (S.setDigest d).outlen = S.outlen := rfl
@[simp] theorem Engine.setDigest_err : (S.setDigest d).err = S.err := rfl

end SetDigest

section Reset

@[simp] theorem Engine.toReset_eq (S : Engine) : S.toReset = Engine.reset := rfl
@[simp] theorem Engine.reset_key : Engine.reset.key = [] := rfl
@[simp] theorem Engine.reset_data : Engine.reset.data = [] := rfl
@[simp] theorem Engine.reset_dg : Engine.reset.dg = Digest.zero := rfl
@[simp] theorem Engine.reset_dgv : Engine.reset.dgv = false := rfl
@[simp] theorem Engine.reset_out : Engine.reset.out = Vector.replicate 40 0 := rfl
@[simp] theorem Engine.reset_outlen : Engine.reset.outlen = 0 := rfl
@[simp] theorem Engine.reset_err : Engine.reset.err = .eNone := rfl

variable (cfg : Config)

@[simp] theorem State.resetWith_engine : (State.resetWith cfg).engine = Engine.reset := rfl
@[simp] theorem State.resetWith_cfg : (State.resetWith cfg).cfg = cfg := rfl
@[simp] theorem State.resetWith_pending : (State.resetWith cfg).pending = [] := rfl
@[simp] theorem State.resetWith_replies : (State.resetWith cfg).replies = [] := rfl

end Reset

end Sys2Proof.Machine
end

