-- ==== Sys2Proof/Laws/Ops.lean ====
section
/-! SUPPORT. What each shared operation can do, said once. -/

namespace Sys2Proof.Machine

/-! ## The error lock -/

theorem State.honour_of_good {s : State} (f : Engine → Engine) (h : s.engine.err = .eNone) :
    s.honour f = .next (s.withEngine (f s.engine)) := if_pos h

theorem State.honour_of_locked {s : State} (f : Engine → Engine) (h : s.engine.err ≠ .eNone) :
    s.honour f = .next s := if_neg h

/-- A command under the lock's test always answers a next state, which differs from the old one in the
engine only. -/
theorem State.honour_next (s : State) (f : Engine → Engine) :
    ∃ S, s.honour f = .next (s.withEngine S) := by
  unfold State.honour
  split
  · exact ⟨_, rfl⟩
  · exact ⟨s.engine, rfl⟩

/-- If `honour` answers `next t`, the engine was locked and `t` is `s`, or it was not and `t` has the
effect. -/
theorem State.honour_cases {s t : State} {f : Engine → Engine} (h : s.honour f = .next t) :
    (s.engine.err ≠ .eNone ∧ t = s) ∨ (s.engine.err = .eNone ∧ t = s.withEngine (f s.engine)) := by
  unfold State.honour at h
  split at h
  · exact .inr ⟨‹_›, by cases h; rfl⟩
  · exact .inl ⟨‹_›, by cases h; rfl⟩

/-! ## The buffers -/

theorem Engine.appendData_of_full {S : Engine} {cfg : Config} (ch : Character)
    (h : S.data.length = cfg.dataMax.val) : S.appendData cfg ch = S.raise .eCapacity := if_pos h

theorem Engine.appendData_of_room {S : Engine} {cfg : Config} (ch : Character)
    (h : S.data.length ≠ cfg.dataMax.val) :
    S.appendData cfg ch = { S with data := S.data ++ [ch] } := if_neg h

theorem Engine.appendKey_of_full {S : Engine} {cfg : Config} (ch : Character)
    (h : S.key.length = cfg.keyMax.val) : S.appendKey cfg ch = S.raise .eCapacity := if_pos h

theorem Engine.appendKey_of_room {S : Engine} {cfg : Config} (ch : Character)
    (h : S.key.length ≠ cfg.keyMax.val) :
    S.appendKey cfg ch = { S with key := S.key ++ [ch] } := if_neg h

/-! ## The result string -/

theorem Engine.emit_of_valid {S : Engine} (r : Text) (h : S.dgv = true) :
    S.emit r = { S with out := outImage r, outlen := r.length } := if_pos h

theorem Engine.emit_of_no_digest {S : Engine} (r : Text) (h : S.dgv = false) :
    S.emit r = S.raise .eNoDigest := if_neg (by simp [h])

theorem outImage_toList (r : Text) :
    (outImage r).toList = (List.range 40).map fun i => r.getD i 0 := rfl

theorem outImage_getElem (r : Text) (i : Nat) (h : i < 40) : (outImage r)[i] = r.getD i 0 := by
  simp [outImage]

theorem toList_getD_of_lt (v : Vector Character 40) {i : Nat} (h : i < 40) : v.toList.getD i 0 = v[i] := by
  simp [List.getD_eq_getElem?_getD, h]

/-- The zeroed `OUT` reads as zero at every index. -/
theorem reset_out_getD (i : Nat) : Engine.reset.out.toList.getD i 0 = 0 := by
  by_cases h : i < 40
  · rw [toList_getD_of_lt _ h]; simp
  · simp [List.getD_eq_getElem?_getD, h]

/-- Beyond the result string `OUT` is zero, whatever index is asked for. -/
theorem outImage_tail (r : Text) {i : Nat} (h : r.length ≤ i) : (outImage r).toList.getD i 0 = 0 := by
  rw [outImage_toList]
  by_cases hi : i < 40 <;> simp [List.getD_eq_getElem?_getD, hi, h]

end Sys2Proof.Machine
end

