-- ==== Sys2Proof/Laws/Encoders.lean ====
section
/-! SUPPORT. The output encoders: the lengths of the result strings (spec/44_output_encoders.md R172, R175,
R176). -/

namespace Sys2Proof.Machine

@[simp] theorem length_words (d : Digest) : d.words.length = 5 := rfl

@[simp] theorem length_digestBytes (d : Digest) : (digestBytes d).length = 20 := by simp [digestBytes]

@[simp] theorem length_toHex (d : Digest) (u : HexCase) : (toHex d u).length = 40 := by
  simp [toHex, List.length_flatMap]

/-- Of the 28 positions only the last lies beyond the digest. -/
theorem length_base64Position (b : List Nat) (padding : Option Character) (g j : Nat) :
    (base64Position b padding g j).length =
      if 24 * g + 6 * j ≥ 160 then padding.toList.length else 1 := by
  unfold base64Position
  split <;> rfl

theorem length_toBase64 (d : Digest) (padding : Option Character) :
    (toBase64 d padding).length = 27 + padding.toList.length := by
  simp only [toBase64, List.length_flatMap, length_base64Position]
  cases padding <;> rfl

@[simp] theorem length_toText (d : Digest) (w : Width) : (toText d w).length = 160 / w.bits := by
  simp [toText]

end Sys2Proof.Machine
end

