-- ==== Sys2Proof/Laws/Invariant.lean ====
section
/-! SUPPORT. What each shared operation does to the invariant of spec/10_state.md R36. A digest stands as a
variable here: a proof that cites these lemmas never compares a computed digest with a stored one. -/

namespace Sys2Proof.Machine

/-- The invariant looks at the engine and the capacities only. -/
theorem State.Inv.of_engine_eq {s t : State} (h : s.Inv) (he : t.engine = s.engine) (hc : t.cfg = s.cfg) :
    t.Inv := by
  constructor
  · rw [he, hc]; exact h.key_fits
  · rw [he, hc]; exact h.data_fits
  · rw [he]; exact h.outlen_legal
  · rw [he]; exact h.out_tail_zero
  · rw [he]; exact h.digest_zero
  · rw [he]; exact h.out_has_digest

theorem State.Inv.raise {s : State} (h : s.Inv) (e : ErrorCode) : (s.withEngine (s.engine.raise e)).Inv :=
  ⟨h.key_fits, h.data_fits, h.outlen_legal, h.out_tail_zero, h.digest_zero, h.out_has_digest⟩

theorem State.Inv.setDigest {s : State} (h : s.Inv) (d : Digest) :
    (s.withEngine (s.engine.setDigest d)).Inv where
  key_fits := h.key_fits
  data_fits := h.data_fits
  outlen_legal := h.outlen_legal
  out_tail_zero := h.out_tail_zero
  digest_zero := by simp
  out_has_digest := by simp

theorem State.Inv.emit {s : State} (h : s.Inv) {r : Text} (hr : r.length ∈ [0, 10, 20, 27, 28, 40]) :
    (s.withEngine (s.engine.emit r)).Inv := by
  cases hv : s.engine.dgv with
  | false => rw [Engine.emit_of_no_digest r hv]; exact h.raise _
  | true =>
    rw [Engine.emit_of_valid r hv]
    exact ⟨h.key_fits, h.data_fits, hr, fun i hi => outImage_tail r hi, h.digest_zero, fun _ => hv⟩

theorem State.Inv.appendData {s : State} (h : s.Inv) (ch : Character) :
    (s.withEngine (s.engine.appendData s.cfg ch)).Inv := by
  by_cases hf : s.engine.data.length = s.cfg.dataMax.val
  · rw [Engine.appendData_of_full ch hf]; exact h.raise _
  · rw [Engine.appendData_of_room ch hf]
    have := h.data_fits
    exact ⟨h.key_fits, by simp; omega, h.outlen_legal, h.out_tail_zero, h.digest_zero, h.out_has_digest⟩

theorem State.Inv.appendKey {s : State} (h : s.Inv) (ch : Character) :
    (s.withEngine (s.engine.appendKey s.cfg ch)).Inv := by
  by_cases hf : s.engine.key.length = s.cfg.keyMax.val
  · rw [Engine.appendKey_of_full ch hf]; exact h.raise _
  · rw [Engine.appendKey_of_room ch hf]
    have := h.key_fits
    exact ⟨by simp; omega, h.data_fits, h.outlen_legal, h.out_tail_zero, h.digest_zero, h.out_has_digest⟩

end Sys2Proof.Machine
end

