-- ==== Sys2Proof/Laws/PerInstr.lean ====
section
/-! SUPPORT. A fact of every command, one lemma per constructor: its word has the fields of its format
(spec/30_encoding.md R70 to R73). -/

namespace Sys2Proof

@[simp] theorem Width.ofMode_mode (w : Width) : Width.ofMode w.mode = w := by cases w <;> rfl
@[simp] theorem HexCase.ofMode_mode (u : HexCase) : HexCase.ofMode u.mode = u := by cases u <;> rfl

end Sys2Proof

namespace Sys2Proof.Laws

namespace EncodedFields

/-- The opcode R74 gives a command. -/
def opcodeOf : Instr → BitVec 8
  | .nop => 0x00
  | .clr => 0x01
  | .pushd _ => 0x02
  | .pushk _ => 0x03
  | .sha1 _ => 0x10
  | .hmac _ => 0x11
  | .hex _ => 0x20
  | .b64 => 0x21
  | .txt _ => 0x22
  | .b64p _ => 0x23

/-- The mode bit of a command: its operand in format M, zero otherwise (R70). -/
def modeOf : Instr → Bool
  | .sha1 w | .hmac w | .txt w => w.mode
  | .hex u => u.mode
  | .nop | .clr | .pushd _ | .pushk _ | .b64 | .b64p _ => false

/-- The immediate of a command: its character in format C, zero otherwise (R70). -/
def immOf : Instr → Character
  | .pushd ch | .pushk ch | .b64p ch => ch
  | .nop | .clr | .sha1 _ | .hmac _ | .hex _ | .b64 | .txt _ => 0

/-- The word of `i` carries its opcode, zero in the reserved bits, its mode bit and its immediate. -/
def Statement (i : Instr) : Prop :=
  opcField (encode i) = opcodeOf i ∧ rsvField (encode i) = 0 ∧
    modeField (encode i) = modeOf i ∧ immField (encode i) = immOf i

theorem fields_encodeC (opc : BitVec 8) (ch : Character) :
    opcField (encodeC opc ch) = opc ∧ rsvField (encodeC opc ch) = 0 ∧
      modeField (encodeC opc ch) = false ∧ immField (encodeC opc ch) = ch := by
  refine ⟨?_, ?_, by simp [modeField, encodeC], ?_⟩ <;> apply BitVec.eq_of_getLsbD_eq <;> intro i hi
  · have hch : ch.getLsbD (24 + i) = false := BitVec.getLsbD_of_ge ch _ (by omega)
    have h1 : 24 + i < 32 := by omega
    simp [opcField, encodeC, hi, hch, h1]
  · have hch : ch.getLsbD (17 + i) = false := BitVec.getLsbD_of_ge ch _ (by omega)
    have h1 : ¬ 24 ≤ 17 + i := by omega
    simp [rsvField, encodeC, hch, h1]
  · have h1 : i < 24 := by omega
    have h2 : i < 32 := by omega
    simp [immField, encodeC, hi, h1, h2]

theorem nop : Statement .nop := by unfold Statement; decide
theorem clr : Statement .clr := by unfold Statement; decide
theorem pushd (ch : Character) : Statement (.pushd ch) := fields_encodeC 0x02 ch
theorem pushk (ch : Character) : Statement (.pushk ch) := fields_encodeC 0x03 ch
theorem sha1 (w : Width) : Statement (.sha1 w) := by cases w <;> unfold Statement <;> decide
theorem hmac (w : Width) : Statement (.hmac w) := by cases w <;> unfold Statement <;> decide
theorem hex (u : HexCase) : Statement (.hex u) := by cases u <;> unfold Statement <;> decide
theorem b64 : Statement .b64 := by unfold Statement; decide
theorem txt (w : Width) : Statement (.txt w) := by cases w <;> unfold Statement <;> decide
theorem b64p (ch : Character) : Statement (.b64p ch) := fields_encodeC 0x23 ch

end EncodedFields

end Sys2Proof.Laws
end

