-- ==== Sys2Proof/Laws/Step.lean ====
section
/-! SUPPORT. What a command and a step can do, said once. -/

namespace Sys2Proof.Machine

/-- What a command does to an engine that is not locked. -/
def effect (cfg : Config) : Instr → Engine → Engine
  | .nop, S => S
  | .clr, S => S.toReset
  | .pushd ch, S => S.appendData cfg ch
  | .pushk ch, S => S.appendKey cfg ch
  | .sha1 w, S => S.setDigest (sha1Text S.data w)
  | .hmac w, S => S.setDigest (hmacText S.key S.data w)
  | .hex u, S => S.emit (toHex S.dg u)
  | .b64, S => S.emit (toBase64 S.dg none)
  | .txt w, S => S.emit (toText S.dg w)
  | .b64p ch, S => S.emit (toBase64 S.dg (some ch))

theorem exec_clr (s : State) : exec .clr s = .next (s.withEngine Engine.reset) := rfl

/-- Every command but CLR has its effect under the error lock's test. -/
theorem exec_eq_honour {i : Instr} (hi : i ≠ .clr) (s : State) :
    exec i s = s.honour (effect s.cfg i) := by
  cases i with
  | clr => exact absurd rfl hi
  | nop | pushd | pushk | sha1 | hmac | hex | b64 | txt | b64p => rfl

/-- On an engine that is not locked every command answers its effect. -/
theorem exec_of_good {s : State} (h : s.engine.err = .eNone) (i : Instr) :
    exec i s = .next (s.withEngine (effect s.cfg i s.engine)) := by
  by_cases hi : i = .clr
  · subst hi; rfl
  · rw [exec_eq_honour hi, State.honour_of_good _ h]

/-- Under error lock a legal command other than CLR leaves the state as it is. -/
theorem exec_of_locked {i : Instr} {s : State} (hi : i ≠ .clr) (h : s.engine.err ≠ .eNone) :
    exec i s = .next s := by
  rw [exec_eq_honour hi, State.honour_of_locked _ h]

/-- Every legal command answers a next state that differs from the old one in the engine only. -/
theorem exec_next (i : Instr) (s : State) : ∃ S, exec i s = .next (s.withEngine S) := by
  by_cases hi : i = .clr
  · subst hi; exact ⟨_, rfl⟩
  · rw [exec_eq_honour hi]; exact s.honour_next _

/-- `Cmd(c)` always returns a state (R100). -/
theorem command_next (c : Word) (s : State) : ∃ S, command c s = .next (s.withEngine S) := by
  unfold command
  split
  · exact exec_next _ s
  · exact s.honour_next _

theorem command_of_legal {c : Word} {i : Instr} (h : decode32 c = .ok i) (s : State) :
    command c s = exec i s := by simp [command, h]

theorem command_of_illegal {c : Word} {why : IllegalWord} (h : decode32 c = .error why) (s : State) :
    command c s = execIllegal s := by simp [command, h]

/-- If the action of the host answers a next state, it is a write to CMD, an ignored write, a read or a
reset. -/
theorem serve_cases {e : HostEvent} {s t : State} (h : serve e s = .next t) :
    (∃ c, e = .write cmdIndex c ∧ command c s = .next t) ∨
    (∃ i v, e = .write i v ∧ i < registerCount ∧ i ≠ cmdIndex ∧ t = s) ∨
    (∃ i, e = .read i ∧ i < registerCount ∧
      t = { s with replies := s.replies ++ [s.engine.readRegister i] }) ∨
    (e = .reset ∧ t = s.withEngine Engine.reset) := by
  cases e with
  | write i v =>
    simp only [serve, hostWrite] at h
    split at h
    · split at h
      · subst_vars; exact .inl ⟨v, rfl, h⟩
      · cases h; exact .inr (.inl ⟨i, v, rfl, ‹_›, ‹_›, rfl⟩)
    · cases h
  | read i =>
    simp only [serve, hostRead] at h
    split at h
    · cases h; exact .inr (.inr (.inl ⟨i, rfl, ‹_›, rfl⟩))
    · cases h
  | reset => cases h; exact .inr (.inr (.inr ⟨rfl, rfl⟩))

/-- A step serves the oldest pending action, or idles. -/
theorem step_cases {s t : State} (h : step s = .next t) :
    (s.pending = [] ∧ t = s) ∨
    (∃ e rest, s.pending = e :: rest ∧ serve e { s with pending := rest } = .next t) := by
  unfold step serveNext at h
  split at h
  · cases h; exact .inl ⟨‹_›, rfl⟩
  · exact .inr ⟨_, _, ‹_›, h⟩

theorem step_of_pending {s : State} {e : HostEvent} {rest : List HostEvent}
    (h : s.pending = e :: rest) : step s = serve e { s with pending := rest } := by
  simp [step, serveNext, h]

/-! ## Runs -/

theorem run_zero (s : State) : Sys2Proof.core.run 0 s = .next s := rfl

theorem run_of_next {s t : State} (h : step s = .next t) (n : Nat) :
    Sys2Proof.core.run (n + 1) s = Sys2Proof.core.run n t := by
  have h' : Sys2Proof.core.step s = .next t := h
  simp only [Host.Core.run, h']

theorem run_of_fault {s : State} {f : Fault} (h : step s = .fault f) (n : Nat) :
    Sys2Proof.core.run (n + 1) s = .fault f := by
  have h' : Sys2Proof.core.step s = .fault f := h
  simp only [Host.Core.run, h']

theorem run_of_refused {s : State} {r : Refusal} (h : step s = .refused r) (n : Nat) :
    Sys2Proof.core.run (n + 1) s = .refused r := by
  have h' : Sys2Proof.core.step s = .refused r := h
  simp only [Host.Core.run, h']

/-- A run that answers a next state after one more step took that step first. -/
theorem run_succ_cases {s t : State} {n : Nat} (h : Sys2Proof.core.run (n + 1) s = .next t) :
    ∃ m, step s = .next m ∧ Sys2Proof.core.run n m = .next t := by
  cases hs : step s with
  | next m => exact ⟨m, rfl, by rw [← run_of_next hs]; exact h⟩
  | fault f => rw [run_of_fault hs] at h; cases h
  | refused r => rw [run_of_refused hs] at h; cases h

/-- Package an invariant once: what every step keeps, every run keeps. -/
theorem run_keeps {P : State → Prop} (hstep : ∀ s t, P s → step s = .next t → P t) :
    ∀ (n : Nat) (s t : State), P s → Sys2Proof.core.run n s = .next t → P t
  | 0, s, t, hs, h => by rw [run_zero] at h; cases h; exact hs
  | n + 1, s, t, hs, h => by
    obtain ⟨m, hm, hr⟩ := run_succ_cases h
    exact run_keeps hstep n m t (hstep s m hs hm) hr

theorem serve_write_cmd (c : Word) (s : State) : serve (.write cmdIndex c) s = command c s := rfl

end Sys2Proof.Machine
end

