-- ==== Sys2Proof/Tests/Slice0.lean ====
section
/-! SUPPORT. Tests of single steps, with expected values from spec/95_test_vectors.md (the section or vector
stands beside each), and for every statement with hypotheses a witness that meets them all. -/

namespace Sys2Proof.Tests

open Sys2Proof.Machine

/-! ## Helpers -/

/-- An instance whose two buffers hold three characters each. -/
def tiny : Config := ⟨⟨3, by decide⟩, ⟨3, by decide⟩⟩

/-- A state of that instance with nothing pending. -/
def at_ (S : Engine) : State := { State.resetWith tiny with engine := S }

/-- The digest of "abc" (vector S4). -/
def abcDigest : Digest := ⟨0xA9993E36, 0x4706816A, 0xBA3E2571, 0x7850C26C, 0x9CD0D89D⟩

/-- KEY "key", DATA "abc", no digest yet. -/
def loaded : Engine := { Engine.reset with key := [0x6B, 0x65, 0x79], data := [0x61, 0x62, 0x63] }

/-- The digest of "abc" in `DG`. -/
def ready : Engine := { Engine.reset with dg := abcDigest, dgv := true }

/-- Under error lock. -/
def locked : Engine := { ready with err := .eCapacity }

/-- The engine after a command, the reset state if the command did not answer a next state. -/
def after (i : Instr) (S : Engine) : Engine :=
  match exec i (at_ S) with
  | .next t => t.engine
  | _ => Engine.reset

/-- The result string, `OUT[0..OUTLEN-1]`. -/
def result (S : Engine) : List Nat := (S.out.toList.take S.outlen).map BitVec.toNat

/-! ## Well-formedness: each check refuses an ill-formed term (R50) -/

theorem test_wf_write_last : (HostEvent.write 0x3F 1).wellFormed = true := by decide
theorem test_wf_write_beyond : (HostEvent.write 0x40 1).wellFormed = false := by decide
theorem test_wf_read_last : (HostEvent.read 0x3F).wellFormed = true := by decide
theorem test_wf_read_beyond : (HostEvent.read 0x40).wellFormed = false := by decide
theorem test_step_beyond : (match step { at_ ready with pending := [.read 0x40] } with
    | .fault (.noSuchRegister i) => i == 0x40
    | _ => false) = true := by decide

/-! ## Decoding: words written out bit by bit from R70 to R74; expected values from section 7.1 -/

/-- A word from its fields, `OPC`, `RSV`, `M`, `IMM` from the left (R70). -/
abbrev fields (opc : BitVec 8) (rsv : BitVec 7) (m : BitVec 1) (imm : BitVec 16) : Word :=
  opc ++ rsv ++ m ++ imm

theorem test_decode_nop : decode32 (fields 0b00000000 0 0 0) = .ok .nop := by decide
theorem test_decode_clr : decode32 (fields 0b00000001 0 0 0) = .ok .clr := by decide
theorem test_decode_pushd :
    decode32 (fields 0b00000010 0 0 0b1111111111111110) = .ok (.pushd 0xFFFE) := by decide
theorem test_decode_pushk :
    decode32 (fields 0b00000011 0 0 0b0000000001101011) = .ok (.pushk 0x006B) := by decide
theorem test_decode_sha1_8 : decode32 (fields 0b00010000 0 0 0) = .ok (.sha1 .w8) := by decide
theorem test_decode_sha1_16 : decode32 (fields 0b00010000 0 1 0) = .ok (.sha1 .w16) := by decide
theorem test_decode_hmac_8 : decode32 (fields 0b00010001 0 0 0) = .ok (.hmac .w8) := by decide
theorem test_decode_hmac_16 : decode32 (fields 0b00010001 0 1 0) = .ok (.hmac .w16) := by decide
theorem test_decode_hex_l : decode32 (fields 0b00100000 0 0 0) = .ok (.hex .lower) := by decide
theorem test_decode_hex_u : decode32 (fields 0b00100000 0 1 0) = .ok (.hex .upper) := by decide
theorem test_decode_b64 : decode32 (fields 0b00100001 0 0 0) = .ok .b64 := by decide
theorem test_decode_txt_8 : decode32 (fields 0b00100010 0 0 0) = .ok (.txt .w8) := by decide
theorem test_decode_txt_16 : decode32 (fields 0b00100010 0 1 0) = .ok (.txt .w16) := by decide
theorem test_decode_b64p :
    decode32 (fields 0b00100011 0 0 0b0000000000111101) = .ok (.b64p 0x3D) := by decide
theorem test_decode_table_word : decodeTableWord 32 0x02000061 = some (.pushd 0x61) := by decide

/-- The illegal words of section 7.1, each by the ground R76 gives it. -/
theorem test_decode_illegal :
    ([0x00000001, 0x01000001, 0x10000001, 0x1001FFFF, 0x2100003D].map decode32 =
      List.replicate 5 (.error .immediate)) ∧
    ([0x00010000, 0x02010061, 0x21010000, 0x2301003D].map decode32 =
      List.replicate 4 (.error .modeBit)) ∧
    ([0x02800061, 0x10020000, 0x10030000, 0x10800000].map decode32 =
      List.replicate 4 (.error .reservedBits)) ∧
    ([0x04000000, 0x0F000000, 0x12000000, 0x24000000, 0x80000000, 0xFFFFFFFF].map decode32 =
      List.replicate 6 (.error .unassignedOpcode)) := by decide

/-! ## The functions from the inside (section 3) -/

theorem test_rotl : rotl32 0x67452301 5 = 0xE8A4602C ∧ rotl32 0xEFCDAB89 30 = 0x7BF36AE2 := by decide
/-- Round 0 of "abc" (3.3); plain `a` would give `7FB7BF08` (section 9). -/
theorem test_round_zero :
    sha1Round 0 ⟨0x67452301, 0xEFCDAB89, 0x98BADCFE, 0x10325476, 0xC3D2E1F0⟩ 0x61626380 =
      ⟨0x0116FC33, 0x67452301, 0x7BF36AE2, 0x98BADCFE, 0x10325476⟩ := by decide
/-- Vector E9 (4.1). -/
theorem test_pad_e9 : pad (encodeText [0x61, 0x62, 0x63] .w16) 48 =
    [0x00610062, 0x00638000, 0, 0, 0, 0, 0, 0, 0, 0, 0, 0, 0, 0, 0, 0x30] := by decide
/-- `W16`, `W18` and `W79` of "abc" (3.2). -/
theorem test_schedule_abc :
    let w := schedule [0x61626380, 0, 0, 0, 0, 0, 0, 0, 0, 0, 0, 0, 0, 0, 0, 0x18]
    w.getD 16 0 = 0xC2C4C700 ∧ w.getD 18 0 = 0x30 ∧ w.getD 79 0 = 0x822E0879 := by decide +kernel

/-! ## One step of each command -/

theorem test_nop : after .nop ready = ready := by decide
theorem test_clr_ends_lock : after .clr locked = Engine.reset := by decide
theorem test_pushd : (after (.pushd 0xFF63) Engine.reset).data = [0xFF63] := by decide
/-- The buffer of `tiny` is full (V7.6). -/
theorem test_pushd_full :
    after (.pushd 0x64) loaded = { loaded with err := .eCapacity } := by decide
theorem test_pushk : (after (.pushk 0x6B) Engine.reset).key = [0x6B] := by decide
theorem test_pushk_locked : after (.pushk 0x6B) locked = locked := by decide
/-- Vector S4. -/
theorem test_sha1_8 : after (.sha1 .w8) loaded = { loaded with dg := abcDigest, dgv := true } := by
  decide +kernel
/-- Vector T3. -/
theorem test_sha1_16 : (after (.sha1 .w16) loaded).dg =
    ⟨0xAF68535C, 0xB6D1AF8B, 0x6E3C6030, 0x5CF0BFAE, 0x6C57DE36⟩ := by decide +kernel
/-- Vector H17, whose digest is that of key "key", data "abc". -/
theorem test_hmac_8 : (after (.hmac .w8) loaded).dg =
    ⟨0x4FD0B215, 0x276EF12F, 0x2B3E4C8E, 0xCAC28114, 0x98B656FC⟩ := by decide +kernel
/-- Vector H4. -/
theorem test_hmac_16 : (after (.hmac .w16) loaded).dg =
    ⟨0x5A2A6618, 0x23F6B50E, 0xA5FAE503, 0x0A4C3541, 0xBE9508EF⟩ := by decide +kernel
/-- Vector O6, the codes of the forty lowercase digits. -/
theorem test_hex_lower : result (after (.hex .lower) ready) =
    selfTestAnswer.map BitVec.toNat := by decide +kernel
/-- Without a digest (V7.4). -/
theorem test_hex_no_digest :
    after (.hex .lower) Engine.reset = { Engine.reset with err := .eNoDigest } := by decide +kernel
/-- Vector O6, `qZk+NkcGgWq6PiVxeFDCbJzQ2J0`. -/
theorem test_b64 : result (after .b64 ready) =
    [0x71, 0x5A, 0x6B, 0x2B, 0x4E, 0x6B, 0x63, 0x47, 0x67, 0x57, 0x71, 0x36, 0x50, 0x69, 0x56, 0x78,
     0x65, 0x46, 0x44, 0x43, 0x62, 0x4A, 0x7A, 0x51, 0x32, 0x4A, 0x30] := by decide +kernel
/-- The pad is copied as given and counts (R181). -/
theorem test_b64p : (result (after (.b64p 0x2A) ready)).drop 25 = [0x4A, 0x30, 0x2A] := by
  decide +kernel
/-- Vector O6. -/
theorem test_txt_8 : result (after (.txt .w8) ready) =
    [0xA9, 0x99, 0x3E, 0x36, 0x47, 0x06, 0x81, 0x6A, 0xBA, 0x3E, 0x25, 0x71, 0x78, 0x50, 0xC2, 0x6C,
     0x9C, 0xD0, 0xD8, 0x9D] := by decide +kernel
/-- Vector O6. -/
theorem test_txt_16 : result (after (.txt .w16) ready) =
    [0xA999, 0x3E36, 0x4706, 0x816A, 0xBA3E, 0x2571, 0x7850, 0xC26C, 0x9CD0, 0xD89D] := by
  decide +kernel

/-! ## The step and the registers -/

theorem test_step_runs_fetched_word : (match step ((at_ ready).withFetchWord 32 0x02000061) with
    | .next t => decide (t.engine.data = [0x61] ∧ t.pending = [])
    | _ => false) = true := by decide
/-- An illegal word (V7.5). -/
theorem test_step_illegal : (match step ((at_ ready).withFetchWord 32 0x04000000) with
    | .next t => decide (t.engine = { ready with err := .eIllCmd })
    | _ => false) = true := by decide
/-- STATUS with `ERR = 2` beside `DGV = 1` (V7.8), and the digest registers. -/
theorem test_registers : locked.readRegister 0x01 = 0x12 ∧ locked.readRegister 0x08 = 0xA9993E36 ∧
    locked.readRegister 0x0C = 0x9CD0D89D ∧ locked.readRegister 0x0D = 0 ∧
    loaded.readRegister 0x02 = 3 := by decide
/-- A write to a read-only or unmapped register does nothing (V7.16). -/
theorem test_write_elsewhere : (match serve (.write 0x08 5) (at_ ready) with
    | .next t => decide (t = at_ ready)
    | _ => false) = true := by decide

/-! ## Witnesses: states and operands that meet the hypotheses of the statements -/

/-- A state of the invariant without a digest. -/
theorem witness_inv_reset : (State.resetWith tiny).Inv where
  key_fits := by simp
  data_fits := by simp
  outlen_legal := by simp
  out_tail_zero := fun i _ => reset_out_getD i
  digest_zero := by simp
  out_has_digest := by simp

/-- A state of the invariant with a digest, OUT rendered. -/
theorem witness_inv_rendered : ((at_ ready).withEngine (ready.emit (List.replicate 40 0x61))).Inv :=
  (witness_inv_reset.setDigest abcDigest).emit (by decide)

theorem witness_EncodeOfDecodeIsIdentity : decode32 0x0200FFFF = .ok (.pushd 0xFFFF) := by decide
theorem witness_OpcodeMapDecidesTheCommand :
    ⟨"TXT", 0x22000000, 0xFFFEFFFF⟩ ∈ opcodeMap ∧ (0x22010000 : Word) &&& 0xFFFEFFFF = 0x22000000 := by
  decide
theorem witness_IllegalWordRaisesIllCmd : (at_ ready).engine.err = .eNone ∧
    ∀ r ∈ opcodeMap, (0x01000001 : Word) &&& r.mask ≠ r.pattern := by decide
theorem witness_StepRunsDecodedInstruction :
    { at_ ready with pending := [.write 0x00 0x10010000] }.pending =
      .write 0x00 0x10010000 :: [] ∧ decode32 0x10010000 = .ok (.sha1 .w16) ∧
    decodeTableWord 32 0x10010000 = some (.sha1 .w16) := by decide
theorem witness_IdleStepHoldsState : (at_ ready).pending = [] := by decide
theorem witness_StepFaultsOnlyOutsideRegisterSpace :
    step { at_ ready with pending := [.read 0x40] } = .fault (.noSuchRegister 0x40) ∧
    step { at_ ready with pending := [.write 0x40 0] } = .fault (.noSuchRegister 0x40) := ⟨rfl, rfl⟩
theorem witness_StepAlwaysReturnsAState :
    (∀ e ∈ { at_ ready with pending := [.read 0x3F] }.pending.head?, e.wellFormed = true) ∧
    ∀ e ∈ (at_ ready).pending.head?, e.wellFormed = true := by decide
/-- Each kind of step: idle, a command, a read, a reset. -/
theorem witness_StepHostSideFrame : step (at_ ready) = .next (at_ ready) ∧
    step { at_ ready with pending := [.write 0x00 0x01000000] } = .next (at_ Engine.reset) ∧
    step { at_ ready with pending := [.read 0x00] } = .next { at_ ready with replies := [0] } ∧
    step { at_ ready with pending := [.reset] } = .next (at_ Engine.reset) := ⟨rfl, rfl, rfl, rfl⟩
theorem witness_StepKeepsInvariant : (State.resetWith tiny).Inv ∧
    step (State.resetWith tiny) = .next (State.resetWith tiny) ∧
    ({ State.resetWith tiny with pending := [.write 0x00 0x02000061] } : State).Inv ∧
    ∃ t, step { State.resetWith tiny with pending := [.write 0x00 0x02000061] } = .next t :=
  ⟨witness_inv_reset, rfl, witness_inv_reset.of_engine_eq rfl rfl, _, rfl⟩
theorem witness_good_with_digest : (at_ ready).engine.err = .eNone ∧ (at_ ready).engine.dgv = true := by
  decide
theorem witness_good_without_digest :
    (at_ loaded).engine.err = .eNone ∧ (at_ loaded).engine.dgv = false := by decide
/-- The boundary indices of a write that is ignored, and an action that changes the engine. -/
theorem witness_OnlyCmdWritesAndResetChangeEngine : (0x01 ≠ 0x00 ∧ 0x01 ≤ 0x3F) ∧
    (0x3F ≠ 0x00 ∧ 0x3F ≤ 0x3F) ∧ serve .reset (at_ ready) = .next (at_ Engine.reset) ∧
    (at_ Engine.reset).engine ≠ (at_ ready).engine := ⟨by decide, by decide, rfl, by decide⟩
/-- The invariant with `DGV = 0`, and with `OUTLEN` at 0 and at 40; the boundary indices of each range of the
register map read by exactly one clause. -/
theorem witness_ReadReturnsTheRegisterMap : (State.resetWith tiny).Inv ∧
    (State.resetWith tiny).engine.dgv = false ∧ (State.resetWith tiny).engine.outlen ≤ 39 ∧
    loaded.readRegister 0x04 = 0 ∧ loaded.readRegister 0x05 = 0 ∧ loaded.readRegister 0x07 = 0 ∧
    ready.readRegister 0x08 = 0xA9993E36 ∧ ready.readRegister 0x0C = 0x9CD0D89D ∧
    ready.readRegister 0x0F = 0 ∧ ready.readRegister 0x38 = 0 ∧ ready.readRegister 0x3F = 0 :=
  ⟨witness_inv_reset, by decide⟩
/-- A SHA1 still to come with DATA as it was, another key of the same length, and a run to a next state. -/
theorem witness_TextsReachHostOnlyThroughDigests :
    let s : State := { at_ loaded with pending := [.read 0x02, .write 0x00 0x10000000] }
    ([0x7A, 0x7A, 0x7A] : Text).length = s.engine.key.length ∧ loaded.data.length = s.engine.data.length ∧
    (∀ c w, .write 0x00 c ∈ s.pending → decode32 c = .ok (.hmac w) →
      [0x7A, 0x7A, 0x7A] = s.engine.key ∧ loaded.data = s.engine.data) ∧
    (∀ c w, .write 0x00 c ∈ s.pending → decode32 c = .ok (.sha1 w) → loaded.data = s.engine.data) ∧
    ∃ t, Sys2Proof.core.run 1 s = .next t := by
  refine ⟨rfl, rfl, fun c w hc hd => ?_, fun _ _ _ _ => rfl, _, rfl⟩
  have h : c = 0x10000000 := by simpa using hc
  subst h
  cases w <;> exact absurd hd (by decide)
/-- A locked engine; leaving the lock by each of the two ways. -/
theorem witness_lock : (at_ locked).engine.err ≠ .eNone ∧ (0x01000001 : Word) ≠ 0x01000000 ∧
    serve .reset (at_ locked) = .next (at_ Engine.reset) ∧
    serve (.write 0x00 0x01000000) (at_ locked) = .next (at_ Engine.reset) ∧
    (at_ Engine.reset).engine.err = .eNone := ⟨by decide, by decide, rfl, rfl, rfl⟩
/-- Both clauses of PUSHD and of PUSHK: a full buffer, and one character below full. -/
theorem witness_push : ((at_ loaded).engine.err = .eNone ∧
      (at_ loaded).engine.data.length = (at_ loaded).cfg.dataMax.val ∧
      (at_ loaded).engine.key.length = (at_ loaded).cfg.keyMax.val) ∧
    [0x61, 0x62].length ≠ (at_ loaded).cfg.dataMax.val ∧
    [0x61, 0x62].length ≠ (at_ loaded).cfg.keyMax.val := by decide
/-- Vector E10. -/
theorem witness_HighBytesDoNotMatterAt8 :
    ([0x0161, 0x1262, 0xFF63] : Text).map (fun ch => ch.toNat % 256) =
      ([0x61, 0x62, 0x63] : Text).map fun ch => ch.toNat % 256 := by decide
/-- The last index of each rendering (R172, R175, R176). -/
theorem witness_result_indices : 39 < 40 ∧ 26 < 27 ∧ 9 < 10 ∧ (toHex abcDigest .lower).getD 39 0 = 0x64 ∧
    (toBase64 abcDigest none).getD 26 0 = 0x30 ∧ (toText abcDigest .w16).getD 9 0 = 0xD89D := by
  decide +kernel
theorem witness_RotateIsCircular : (1 ≤ 1 ∧ 1 ≤ 31) ∧ (1 ≤ 31 ∧ 31 ≤ 31) := by decide
/-- The empty message, `L mod 512` at 447 and at 448. -/
theorem witness_PadLayout : ([] : List Word).length = (0 + 31) / 32 ∧
    (List.replicate 14 (0 : Word)).length = (447 + 31) / 32 ∧
    (List.replicate 14 (0 : Word)).length = (448 + 31) / 32 ∧ 448 ≤ 448 % 512 ∧ 448 < 2 ^ 32 := by
  decide
theorem witness_ScheduleRecurrence : (List.replicate 16 (0 : Word)).length = 16 := by decide
/-- The one block of "abc" (section 3). -/
theorem witness_BlockRunsEightyRounds : (blockAt (pad [0x61626300] 24) 0).length = 16 := by decide
/-- The empty message, one block, and a message of 56 bytes, two. -/
theorem witness_CompressRunsEveryBlock :
    (0 < 2 ^ 32 ∧ ([] : List Word).length = (0 + 31) / 32 ∧ (0 + 64) / 512 + 1 = 1) ∧
    448 < 2 ^ 32 ∧ (List.replicate 14 (0x61616161 : Word)).length = (448 + 31) / 32 ∧
    (448 + 64) / 512 + 1 = 2 := by decide
/-- The rounds on both sides of each change of `f` and `k` fall under one clause each (section 3.1). -/
theorem witness_rounds :
    [0, 19, 20, 39, 40, 59, 60, 79].map (roundFunction · 0xEFCDAB89 0x98BADCFE 0x10325476) =
      [0x98BADCFE, 0x98BADCFE, 0x67452301, 0x67452301, 0x98BADCFE, 0x98BADCFE, 0x67452301,
        0x67452301] ∧
    [19, 20, 39, 40, 59, 60, 79].map roundConstant =
      [0x5A827999, 0x6ED9EBA1, 0x6ED9EBA1, 0x8F1BBCDC, 0x8F1BBCDC, 0xCA62C1D6, 0xCA62C1D6] := by
  decide
/-- 65 characters at 8 bits and 33 at 16 are the shortest keys that are hashed (vectors H15, H19). -/
theorem witness_LongKeyIsItsDigest : 512 < (List.replicate 65 (0x6B : Character)).length * Width.w8.bits ∧
    512 < (List.replicate 33 (0x6B : Character)).length * Width.w16.bits := by decide
/-- A text and a key that just fit, the empty ones too. -/
theorem witness_calls : ([0x61, 0x62, 0x63] : Text).length ≤ (at_ locked).cfg.dataMax.val ∧
    ([0x6B, 0x65, 0x79] : Text).length ≤ (at_ locked).cfg.keyMax.val ∧
    ([] : Text).length ≤ (at_ locked).cfg.keyMax.val := by decide

end Sys2Proof.Tests
end

section
/-! PROOFS. Scope (spec/00_scope.md): what a step leaves of the host's side of the state (O13), and
`rotl32` as the circular left rotate (O38). -/

namespace Sys2Proof.Machine

/-! ## The host's side of the state -/

/-- A command that answers a next state has touched the engine only. -/
theorem eq_withEngine_of_command_next {c : Word} {s t : State} (h : command c s = .next t) :
    ∃ S, t = s.withEngine S := by
  obtain ⟨S, hS⟩ := command_next c s
  rw [hS] at h
  cases h
  exact ⟨S, rfl⟩

/-- Serving an action leaves the capacities and the actions behind it; of the host's side of the state,
only a read changes anything: it adds the value read. -/
theorem serve_hostSide {e : HostEvent} {s t : State} (h : serve e s = .next t) :
    t.cfg = s.cfg ∧ t.pending = s.pending ∧
      (t.replies = s.replies ∨ ∃ i v, e = .read i ∧ t.replies = s.replies ++ [v]) := by
  obtain ⟨c, -, hc⟩ | ⟨i, v, -, -, -, rfl⟩ | ⟨i, rfl, -, rfl⟩ | ⟨-, rfl⟩ := serve_cases h
  · obtain ⟨S, rfl⟩ := eq_withEngine_of_command_next hc
    exact ⟨rfl, rfl, .inl rfl⟩
  · exact ⟨rfl, rfl, .inl rfl⟩
  · exact ⟨rfl, rfl, .inr ⟨i, _, rfl, rfl⟩⟩
  · exact ⟨rfl, rfl, .inl rfl⟩

/-- Settles O13: an idle step changes nothing, and any other serves the first pending action, which
leaves the host's side as `serve_hostSide` says. -/
theorem stepHostSideFrame : Obligations.StepHostSideFrame := by
  intro s t h
  obtain ⟨hidle, rfl⟩ | ⟨e, rest, hpend, hserve⟩ := step_cases h
  · exact ⟨rfl, by rw [hidle, List.tail_nil], .inl rfl⟩
  · obtain ⟨hcfg, hrest, hreplies⟩ := serve_hostSide hserve
    refine ⟨hcfg, by rw [hrest, hpend, List.tail_cons], hreplies.imp_right ?_⟩
    rintro ⟨i, v, rfl, happend⟩
    exact ⟨i, v, rest, hpend, happend⟩

/-! ## The rotation (R10) -/

/-- Below the width, `rotl32` is the library's rotation. -/
theorem rotl32_eq_rotateLeft (x : Word) {n : Nat} (hn : n < 32) : rotl32 x n = x.rotateLeft n := by
  rw [BitVec.rotateLeft, Nat.mod_eq_of_lt hn, rotl32, BitVec.rotateLeftAux]

/-- The value of `rotl32` is R10's formula. -/
theorem toNat_rotl32 (x : Word) (n : Nat) :
    (rotl32 x n).toNat = ((x.toNat <<< n) % 2 ^ 32 ||| (x.toNat >>> (32 - n))) := by
  rw [rotl32, BitVec.toNat_or, BitVec.toNat_shiftLeft, BitVec.toNat_ushiftRight]

/-- Bit `i` goes to bit `i + n`, or, where that is past bit 31, wraps round to bit `i + n - 32`. -/
theorem getLsbD_rotl32 (x : Word) {n i : Nat} (hn : n < 32) (hi : i < 32) :
    (rotl32 x n).getLsbD ((i + n) % 32) = x.getLsbD i := by
  rw [rotl32_eq_rotateLeft x hn, BitVec.getLsbD_rotateLeft, Nat.mod_eq_of_lt hn]
  by_cases hwrap : i + n < 32
  · have hhigh : ¬ i + n < n := by omega
    simp [Nat.mod_eq_of_lt hwrap, hwrap, hhigh]
  · have hpos : (i + n) % 32 = i + n - 32 := by omega
    have hlow : i + n - 32 < n := by omega
    have hback : 32 - n + (i + n - 32) = i := by omega
    simp [hpos, hlow, hback]

/-- Settles O38, by the formula of R10 and the case split on whether the bit wraps round. -/
theorem rotateIsCircular : Obligations.RotateIsCircular :=
  fun x n _ hn => ⟨toNat_rotl32 x n, fun _ hi => getLsbD_rotl32 x (by omega) hi⟩

end Sys2Proof.Machine
end

section
/-! PROOFS. State (spec/10_state.md): reset and its invariant (O16, O18), that every step keeps the
invariant (O19), the codes a result string holds (O20), the STATUS view (O23) and the lengths of the result
strings (O51). -/

namespace Sys2Proof.Machine

/-! ## The reset state (R35) and the invariant (R36, items (1) to (3)) -/

@[simp] theorem Digest.word_zero (n : Nat) : Digest.zero.word n = 0 := by
  have hwords : Digest.zero.words = List.replicate 5 0 := rfl
  rw [Digest.word, hwords]
  by_cases hn : n < 5
  · rw [List.getD_replicate 0 hn]
  · exact List.getD_eq_default _ _ (by simpa using hn)

/-- `S0` meets the invariant with any capacities. -/
theorem State.Inv.withEngine_reset (s : State) : (s.withEngine Engine.reset).Inv where
  key_fits := Nat.zero_le _
  data_fits := Nat.zero_le _
  outlen_legal := by simp
  out_tail_zero := fun i _ => reset_out_getD i
  digest_zero := fun _ => rfl
  out_has_digest := by simp

/-- What a command does to an engine that is not locked keeps the invariant. -/
theorem State.Inv.withEngine_effect {s : State} (h : s.Inv) (i : Instr) :
    (s.withEngine (effect s.cfg i s.engine)).Inv := by
  cases i with
  | nop => exact h
  | clr => exact .withEngine_reset s
  | pushd ch => exact h.appendData ch
  | pushk ch => exact h.appendKey ch
  | sha1 w => exact h.setDigest _
  | hmac w => exact h.setDigest _
  | hex u => exact h.emit (by simp)
  | b64 => exact h.emit (by simp [length_toBase64])
  | txt w => exact h.emit (by cases w <;> simp [Width.bits])
  | b64p ch => exact h.emit (by simp [length_toBase64])

/-- Under the lock's test, an effect that keeps the invariant keeps it. -/
theorem State.Inv.of_honour {s t : State} {f : Engine → Engine} (h : s.Inv)
    (hf : (s.withEngine (f s.engine)).Inv) (ht : s.honour f = .next t) : t.Inv := by
  obtain ⟨-, rfl⟩ | ⟨-, rfl⟩ := State.honour_cases ht
  · exact h
  · exact hf

theorem State.Inv.of_exec {s t : State} {i : Instr} (h : s.Inv) (ht : exec i s = .next t) : t.Inv := by
  by_cases hi : i = .clr
  · subst hi
    cases ht
    exact .withEngine_reset s
  · rw [exec_eq_honour hi] at ht
    exact h.of_honour (h.withEngine_effect i) ht

theorem State.Inv.of_command {s t : State} {c : Word} (h : s.Inv) (ht : command c s = .next t) :
    t.Inv := by
  cases hd : decode32 c with
  | ok i =>
    rw [command_of_legal hd] at ht
    exact h.of_exec ht
  | error why =>
    rw [command_of_illegal hd, execIllegal] at ht
    exact h.of_honour (h.raise _) ht

theorem State.Inv.of_serve {s t : State} {e : HostEvent} (h : s.Inv) (ht : serve e s = .next t) :
    t.Inv := by
  obtain ⟨c, -, hc⟩ | ⟨i, v, -, -, -, rfl⟩ | ⟨i, -, -, rfl⟩ | ⟨-, rfl⟩ := serve_cases ht
  · exact h.of_command hc
  · exact h
  · exact h.of_engine_eq rfl rfl
  · exact .withEngine_reset s

/-- Settles O19: a step idles or serves an action of the host, and each kind of action keeps the
invariant. -/
theorem stepKeepsInvariant : Obligations.StepKeepsInvariant := by
  intro s t h ht
  obtain ⟨-, rfl⟩ | ⟨e, rest, -, hserve⟩ := step_cases ht
  · exact h
  · have hrest : ({ s with pending := rest } : State).Inv := h.of_engine_eq rfl rfl
    exact hrest.of_serve hserve

/-- Settles O18: the engine after reset is `S0`. -/
theorem resetHasInvariant : Obligations.ResetHasInvariant :=
  fun cfg => .withEngine_reset (State.resetWith cfg)

/-- Settles O16, field by field. -/
theorem resetStateIsS0 : Obligations.ResetStateIsS0 := by
  have hengine : State.reset.engine = Engine.reset := rfl
  unfold Obligations.ResetStateIsS0
  rw [hengine]
  exact ⟨rfl, rfl, fun n _ => Digest.word_zero n, rfl, fun i => by simp, rfl, rfl, rfl⟩

/-! ## The codes of a result string (R36, item (5)) -/

/-- An entry of a text, zero where there is none, is below any bound on its characters. -/
theorem toNat_getD_lt {r : Text} {b : Nat} (hb : 0 < b) (h : ∀ ch ∈ r, ch.toNat < b) (i : Nat) :
    (r.getD i 0).toNat < b := by
  by_cases hi : i < r.length
  · rw [List.getD_eq_getElem _ _ hi]
    exact h _ (List.getElem_mem hi)
  · rw [List.getD_eq_default _ _ (by omega)]
    exact hb

/-- A run of codes stays below its end. -/
theorem toNat_lt_of_mem_codeRun {start n b : Nat} (h : start + n ≤ b) :
    ∀ ch ∈ codeRun start n, ch.toNat < b := by
  intro ch hch
  obtain ⟨i, hi, rfl⟩ := List.mem_map.mp hch
  have hlt : start + i < b := by have := List.mem_range.mp hi; omega
  rw [BitVec.toNat_ofNat]
  exact (Nat.mod_le _ _).trans_lt hlt

theorem toNat_lt_of_mem_hexTable (u : HexCase) : ∀ ch ∈ hexTable u, ch.toNat < 128 := by
  cases u <;>
    exact List.forall_mem_append.mpr
      ⟨toNat_lt_of_mem_codeRun (by decide), toNat_lt_of_mem_codeRun (by decide)⟩

theorem toNat_lt_of_mem_base64Table : ∀ ch ∈ base64Table, ch.toNat < 128 := by
  simp only [base64Table, List.forall_mem_append]
  exact ⟨⟨⟨toNat_lt_of_mem_codeRun (by decide), toNat_lt_of_mem_codeRun (by decide)⟩,
    toNat_lt_of_mem_codeRun (by decide)⟩, by simp⟩

theorem toNat_lt_of_mem_toHex (d : Digest) (u : HexCase) : ∀ ch ∈ toHex d u, ch.toNat < 128 := by
  have hdigit := toNat_getD_lt (by decide) (toNat_lt_of_mem_hexTable u)
  intro ch hch
  obtain ⟨byte, -, hpair⟩ := List.mem_flatMap.mp hch
  obtain rfl | rfl : ch = (hexTable u).getD (byte / 16) 0 ∨ ch = (hexTable u).getD (byte % 16) 0 := by
    simpa using hpair
  · exact hdigit _
  · exact hdigit _

/-- Without a pad every position is a character of the alphabet, or empty. -/
theorem toNat_lt_of_mem_toBase64_none (d : Digest) : ∀ ch ∈ toBase64 d none, ch.toNat < 128 := by
  intro ch hch
  obtain ⟨g, -, hgroup⟩ := List.mem_flatMap.mp hch
  obtain ⟨j, -, hpos⟩ := List.mem_flatMap.mp hgroup
  unfold base64Position at hpos
  split at hpos
  · cases hpos
  · rw [List.mem_singleton.mp hpos]
    exact toNat_getD_lt (by decide) toNat_lt_of_mem_base64Table _

theorem toNat_decodedChar_lt (x : List Word) (w : Width) (k : Nat) :
    (decodedChar x w k).toNat < 2 ^ w.bits := by
  rw [decodedChar, BitVec.toNat_ofNat]
  exact (Nat.mod_le _ _).trans_lt (Nat.mod_lt _ (Nat.two_pow_pos _))

theorem toNat_lt_of_mem_toText (d : Digest) (w : Width) : ∀ ch ∈ toText d w, ch.toNat < 2 ^ w.bits := by
  intro ch hch
  obtain ⟨k, -, rfl⟩ := List.mem_map.mp hch
  exact toNat_decodedChar_lt _ w k

/-- A command that emits a result string leaves in `OUT` only codes below a bound on the string's. -/
theorem exec_emit_out_lt {s : State} {i : Instr} {r : Text} {b : Nat} (hgood : s.engine.err = .eNone)
    (hv : s.engine.dgv = true) (hi : effect s.cfg i s.engine = s.engine.emit r) (hb : 0 < b)
    (hr : ∀ ch ∈ r, ch.toNat < b) :
    ∃ t, exec i s = .next t ∧ ∀ k : Fin 40, (t.engine.out[k]).toNat < b := by
  refine ⟨_, exec_of_good hgood i, fun k => ?_⟩
  rw [hi, Engine.emit_of_valid r hv]
  have hentry : (outImage r)[k] = r.getD k.val 0 := outImage_getElem r k.val k.isLt
  exact hentry ▸ toNat_getD_lt hb hr k.val

/-- Settles O20: each of the three commands emits a string whose codes are in its range. -/
theorem resultCharactersInRange : Obligations.ResultCharactersInRange := by
  intro s hgood hv
  refine ⟨fun u => ?_, ?_, ?_⟩
  · exact exec_emit_out_lt hgood hv rfl (by decide) (toNat_lt_of_mem_toHex _ u)
  · exact exec_emit_out_lt hgood hv rfl (by decide) (toNat_lt_of_mem_toBase64_none _)
  · exact exec_emit_out_lt hgood hv rfl (by decide) (toNat_lt_of_mem_toText _ .w8)

/-! ## The STATUS view (R27) -/

theorem ErrorCode.code_lt (e : ErrorCode) : e.code < 4 := by cases e <;> decide

/-- STATUS as a number: the error code, which fits below bit 4, and `DGV` at bit 4. -/
theorem Engine.toNat_status (S : Engine) : S.status.toNat = 2 ^ 4 * S.dgv.toNat + S.err.code := by
  have hcode := S.err.code_lt
  have hdgv := S.dgv.toNat_lt
  rw [Nat.mul_comm, ← Nat.shiftLeft_eq, Nat.shiftLeft_add_eq_or_of_lt (by omega : S.err.code < 2 ^ 4),
    Nat.or_comm]
  simp only [Engine.status, BitVec.toNat_or, BitVec.toNat_ofNat, BitVec.toNat_shiftLeft,
    BitVec.toNat_setWidth, BitVec.toNat_ofBool, Nat.shiftLeft_eq]
  congr 1 <;> omega

/-- Settles O23: each field is read off STATUS as a number (`Engine.toNat_status`). -/
theorem statusBits : Obligations.StatusBits := by
  intro S
  have hstatus := S.toNat_status
  have hcode := S.err.code_lt
  have hdgv := S.dgv.toNat_lt
  refine ⟨?_, ?_, ?_⟩
  · rw [BitVec.extractLsb'_toNat, hstatus, Nat.shiftRight_zero]
    omega
  · rw [BitVec.getLsbD, Nat.testBit_eq_decide_div_mod_eq, hstatus]
    cases hb : S.dgv <;> simp <;> omega
  · apply BitVec.eq_of_toNat_eq
    rw [BitVec.extractLsb'_toNat, hstatus, Nat.shiftRight_eq_div_pow]
    change _ = 0
    omega

/-! ## The lengths of the result strings -/

/-- Settles O51, by the length of each encoder's result string. -/
theorem resultLengths : Obligations.ResultLengths :=
  fun D u ch => ⟨length_toHex D u, length_toBase64 D none, length_toBase64 D (some ch),
    length_toText D .w8, length_toText D .w16⟩

end Sys2Proof.Machine
end

section
/-! PROOFS. The host's access to the engine (spec/20_memory.md): a run of command words is the fold of
`Step` (O15), texts reach the host only through digests (O25), what changes the engine (O21), the register
map (O22, O24), and what one step does (O9, O11). -/

namespace Sys2Proof.Machine

/-! ## `Cmd(c)` is `Step(S, c)` (R100) -/

theorem stepR100_clr {c : Word} (hc : decode32 c = .ok .clr) (cfg : Config) (S : Engine) :
    stepR100 cfg S c = Engine.reset := by simp only [stepR100, hc]

theorem stepR100_illegal {c : Word} {why : IllegalWord} (hc : decode32 c = .error why) (cfg : Config)
    (S : Engine) : stepR100 cfg S c = if S.err ≠ .eNone then S else S.raise .eIllCmd := by
  simp only [stepR100, hc]
  rfl

/-- R178's `OUT`, given entry by entry, is the model's image of the result string. -/
theorem ofFn_getD_eq_outImage (r : Text) :
    (Vector.ofFn fun i : Fin 40 => r.getD i.val 0) = outImage r := by
  ext i hi
  rw [Vector.getElem_ofFn, outImage_getElem]

theorem render_eq_emit (S : Engine) (r : Text) :
    stepR100.render S r = if S.err ≠ .eNone then S else S.emit r := by
  rw [stepR100.render, ofFn_getD_eq_outImage]
  rfl

/-- R100's arm of every legal command but CLR: the lock's test in front of the command's effect. -/
theorem stepR100_legal {c : Word} {i : Instr} (hc : decode32 c = .ok i) (hi : i ≠ .clr) (cfg : Config)
    (S : Engine) : stepR100 cfg S c = if S.err ≠ .eNone then S else effect cfg i S := by
  simp only [stepR100, hc]
  cases i with
  | clr => exact absurd rfl hi
  | nop => exact (ite_self S).symm
  | pushd | pushk | sha1 | hmac => rfl
  | hex | b64 | txt | b64p => exact render_eq_emit S _

/-- The lock's test stands the other way round in `honour` than in R100. -/
theorem State.honour_eq_next (s : State) (f : Engine → Engine) :
    s.honour f = .next (s.withEngine (if s.engine.err ≠ .eNone then s.engine else f s.engine)) := by
  by_cases h : s.engine.err = .eNone
  · rw [State.honour_of_good f h, if_neg (not_not_intro h)]
  · rw [State.honour_of_locked f h, if_pos h, State.withEngine_self]

/-- Every word, legal or not, does what R100 says, and nothing outside the engine changes. -/
theorem command_eq_stepR100 (c : Word) (s : State) :
    command c s = .next (s.withEngine (stepR100 s.cfg s.engine c)) := by
  cases hc : decode32 c with
  | error why => rw [command_of_illegal hc, stepR100_illegal hc, execIllegal, State.honour_eq_next]
  | ok i =>
    rw [command_of_legal hc]
    by_cases hi : i = .clr
    · subst hi
      rw [exec_clr, stepR100_clr hc]
    · rw [exec_eq_honour hi, State.honour_eq_next, stepR100_legal hc hi]

/-- A step that serves a write to CMD runs `Step` on the engine. -/
theorem step_of_cmd_write {s : State} {c : Word} {rest : List HostEvent}
    (h : s.pending = .write 0x00 c :: rest) :
    step s = .next { s with engine := stepR100 s.cfg s.engine c, pending := rest } := by
  rw [step_of_pending h, serve_write_cmd, command_eq_stepR100]
  rfl

/-- Settles O15, by induction on the words: each step serves one of them. -/
theorem commandSequenceIsFoldOfStep : Obligations.CommandSequenceIsFoldOfStep := by
  intro cs
  induction cs with
  | nil => intro s; exact run_zero _
  | cons c cs ih =>
    intro s
    rw [List.length_cons, run_of_next (step_of_cmd_write List.map_cons)]
    exact ih { s with engine := stepR100 s.cfg s.engine c }

/-! ## Writes elsewhere and reads (R52, R53) -/

theorem hostWrite_of_ne_cmd {i : Nat} (hi : i < registerCount) (hne : i ≠ cmdIndex) (v : Word) (s : State) :
    hostWrite i v s = .next s := by
  rw [hostWrite, if_pos hi, if_neg hne]

theorem hostRead_of_lt {i : Nat} (hi : i < registerCount) (s : State) :
    hostRead i s = .next { s with replies := s.replies ++ [s.engine.readRegister i] } := if_pos hi

/-! ## Engines that differ in the contents of KEY and DATA -/

/-- The engine with other texts in KEY and DATA. -/
def Engine.withTexts (S : Engine) (k d : Text) : Engine := { S with key := k, data := d }

/-- `S'` is `S` but for the contents of KEY and DATA, which have the same lengths; where `K` holds KEY is
the same, where `D` holds DATA is. -/
def Engine.Varies (K D : Prop) (S S' : Engine) : Prop :=
  ∃ k d : Text, S' = S.withTexts k d ∧ k.length = S.key.length ∧ d.length = S.data.length ∧
    (K → k = S.key) ∧ (D → d = S.data)

/-- The texts that a digest command reads are the same in both engines: `K` says that KEY is, `D` that
DATA is. -/
def TextsAgreeFor (K D : Prop) : Instr → Prop
  | .hmac _ => K ∧ D
  | .sha1 _ => D
  | _ => True

section Varies

variable {K D : Prop} {S S' : Engine}

theorem Engine.Varies.refl (K D : Prop) (S : Engine) : S.Varies K D S :=
  ⟨S.key, S.data, rfl, rfl, rfl, fun _ => rfl, fun _ => rfl⟩

theorem Engine.Varies.err_eq (h : S.Varies K D S') : S'.err = S.err := by
  obtain ⟨k, d, rfl, -⟩ := h
  rfl

theorem Engine.Varies.dg_eq (h : S.Varies K D S') : S'.dg = S.dg := by
  obtain ⟨k, d, rfl, -⟩ := h
  rfl

theorem Engine.Varies.key_eq (h : S.Varies K D S') (hK : K) : S'.key = S.key := by
  obtain ⟨k, d, rfl, -, -, hkey, -⟩ := h
  exact hkey hK

theorem Engine.Varies.data_eq (h : S.Varies K D S') (hD : D) : S'.data = S.data := by
  obtain ⟨k, d, rfl, -, -, -, hdata⟩ := h
  exact hdata hD

/-- The host registers show of the two texts their lengths only (R51, R62). -/
theorem Engine.Varies.readRegister_eq (h : S.Varies K D S') (i : Nat) :
    S'.readRegister i = S.readRegister i := by
  obtain ⟨k, d, rfl, hk, hd, -⟩ := h
  simp only [Engine.readRegister, Engine.withTexts, hk, hd]
  rfl

theorem Engine.Varies.raise (h : S.Varies K D S') (e : ErrorCode) :
    (S.raise e).Varies K D (S'.raise e) := by
  obtain ⟨k, d, rfl, hfit⟩ := h
  exact ⟨k, d, rfl, hfit⟩

theorem Engine.Varies.setDigest (h : S.Varies K D S') (dg : Digest) :
    (S.setDigest dg).Varies K D (S'.setDigest dg) := by
  obtain ⟨k, d, rfl, hfit⟩ := h
  exact ⟨k, d, rfl, hfit⟩

theorem Engine.Varies.emit (h : S.Varies K D S') (r : Text) : (S.emit r).Varies K D (S'.emit r) := by
  cases hv : S.dgv with
  | false =>
    have hv' : S'.dgv = false := by obtain ⟨k, d, rfl, -⟩ := h; exact hv
    rw [Engine.emit_of_no_digest r hv, Engine.emit_of_no_digest r hv']
    exact h.raise _
  | true =>
    obtain ⟨k, d, rfl, hfit⟩ := h
    rw [Engine.emit_of_valid r hv, Engine.emit_of_valid (S := S.withTexts k d) r hv]
    exact ⟨k, d, rfl, hfit⟩

/-- Both buffers are full, or neither is, and then the same character goes behind both texts. -/
theorem Engine.Varies.appendData (h : S.Varies K D S') (cfg : Config) (ch : Character) :
    (S.appendData cfg ch).Varies K D (S'.appendData cfg ch) := by
  obtain ⟨k, d, rfl, hk, hd, hkey, hdata⟩ := h
  by_cases hfull : S.data.length = cfg.dataMax.val
  · rw [Engine.appendData_of_full ch hfull,
      Engine.appendData_of_full (S := S.withTexts k d) ch (hd.trans hfull)]
    exact ⟨k, d, rfl, hk, hd, hkey, hdata⟩
  · rw [Engine.appendData_of_room ch hfull,
      Engine.appendData_of_room (S := S.withTexts k d) ch fun hfull' => hfull (hd.symm.trans hfull')]
    exact ⟨k, d ++ [ch], rfl, hk, by simp [hd], hkey, fun hD => by rw [hdata hD]⟩

theorem Engine.Varies.appendKey (h : S.Varies K D S') (cfg : Config) (ch : Character) :
    (S.appendKey cfg ch).Varies K D (S'.appendKey cfg ch) := by
  obtain ⟨k, d, rfl, hk, hd, hkey, hdata⟩ := h
  by_cases hfull : S.key.length = cfg.keyMax.val
  · rw [Engine.appendKey_of_full ch hfull,
      Engine.appendKey_of_full (S := S.withTexts k d) ch (hk.trans hfull)]
    exact ⟨k, d, rfl, hk, hd, hkey, hdata⟩
  · rw [Engine.appendKey_of_room ch hfull,
      Engine.appendKey_of_room (S := S.withTexts k d) ch fun hfull' => hfull (hk.symm.trans hfull')]
    exact ⟨k ++ [ch], d, rfl, by simp [hk], hd, fun hK => by rw [hkey hK], hdata⟩

/-- No command's effect looks at the contents of KEY and DATA but the two that make a digest of them. -/
theorem Engine.Varies.effect (h : S.Varies K D S') (cfg : Config) {i : Instr} (hi : TextsAgreeFor K D i) :
    (effect cfg i S).Varies K D (effect cfg i S') := by
  cases i with
  | nop => exact h
  | clr => exact .refl K D _
  | pushd ch => exact h.appendData cfg ch
  | pushk ch => exact h.appendKey cfg ch
  | sha1 w =>
    have hdata : S'.data = S.data := h.data_eq hi
    simp only [Machine.effect, hdata]
    exact h.setDigest _
  | hmac w =>
    obtain ⟨hK, hD⟩ : K ∧ D := hi
    simp only [Machine.effect, h.key_eq hK, h.data_eq hD]
    exact h.setDigest _
  | hex | b64 | txt | b64p =>
    simp only [Machine.effect, h.dg_eq]
    exact h.emit _

/-- One `Step` keeps the difference where it is. -/
theorem Engine.Varies.stepR100 (h : S.Varies K D S') (cfg : Config) {c : Word}
    (hc : ∀ i, decode32 c = .ok i → TextsAgreeFor K D i) :
    (stepR100 cfg S c).Varies K D (stepR100 cfg S' c) := by
  cases hd : decode32 c with
  | error why =>
    rw [stepR100_illegal hd, stepR100_illegal hd, h.err_eq]
    split
    · exact h
    · exact h.raise _
  | ok i =>
    by_cases hi : i = .clr
    · subst hi
      rw [stepR100_clr hd, stepR100_clr hd]
      exact .refl K D _
    · rw [stepR100_legal hd hi, stepR100_legal hd hi, h.err_eq]
      split
      · exact h
      · exact h.effect cfg (hc i hd)

end Varies

/-! ## Runs of machines that differ in the contents of KEY and DATA (R62) -/

/-- The texts that the pending digest commands read are the same in both machines. -/
def PendingTextsAgree (K D : Prop) (s : State) : Prop :=
  ∀ c i, .write 0x00 c ∈ s.pending → decode32 c = .ok i → TextsAgreeFor K D i

section Runs

variable {K D : Prop} {s t : State} {S' : Engine}

/-- Each kind of action keeps the difference, and a read returns the same value to both hosts. -/
theorem serve_withEngine_of_varies {e : HostEvent} (h : s.engine.Varies K D S')
    (he : ∀ c i, e = .write 0x00 c → decode32 c = .ok i → TextsAgreeFor K D i)
    (ht : serve e s = .next t) :
    ∃ T', t.engine.Varies K D T' ∧ serve e (s.withEngine S') = .next (t.withEngine T') := by
  obtain ⟨c, rfl, hc⟩ | ⟨i, v, rfl, hlt, hne, rfl⟩ | ⟨i, rfl, hlt, rfl⟩ | ⟨rfl, rfl⟩ := serve_cases ht
  · rw [command_eq_stepR100] at hc
    cases hc
    exact ⟨_, h.stepR100 s.cfg fun i => he c i rfl, by rw [serve_write_cmd, command_eq_stepR100]; rfl⟩
  · exact ⟨S', h, hostWrite_of_ne_cmd hlt hne v _⟩
  · exact ⟨S', h, by rw [serve, hostRead_of_lt hlt, State.withEngine_engine, h.readRegister_eq]; rfl⟩
  · exact ⟨_, .refl K D _, rfl⟩

theorem step_withEngine_of_varies (h : s.engine.Varies K D S') (hp : PendingTextsAgree K D s)
    (ht : step s = .next t) :
    ∃ T', t.engine.Varies K D T' ∧ step (s.withEngine S') = .next (t.withEngine T') := by
  obtain ⟨hidle, rfl⟩ | ⟨e, rest, hpend, hserve⟩ := step_cases ht
  · exact ⟨S', h, by simp [step, serveNext, hidle]⟩
  · have he : ∀ c i, e = .write 0x00 c → decode32 c = .ok i → TextsAgreeFor K D i := by
      rintro c i rfl hd
      exact hp c i (by simp [hpend]) hd
    obtain ⟨T', hT, hserve'⟩ := serve_withEngine_of_varies (s := { s with pending := rest }) h he hserve
    exact ⟨T', hT, by rw [step_of_pending (s := s.withEngine S') hpend]; exact hserve'⟩

/-- A step takes an action off the list and puts none on it. -/
theorem PendingTextsAgree.of_step (hp : PendingTextsAgree K D s) (ht : step s = .next t) :
    PendingTextsAgree K D t := by
  obtain ⟨-, htail, -⟩ := stepHostSideFrame s t ht
  intro c i hmem
  rw [htail] at hmem
  exact hp c i (List.mem_of_mem_tail hmem)

theorem run_withEngine_of_varies (n : Nat) (h : s.engine.Varies K D S') (hp : PendingTextsAgree K D s)
    (ht : Sys2Proof.core.run n s = .next t) :
    ∃ T', t.engine.Varies K D T' ∧ Sys2Proof.core.run n (s.withEngine S') = .next (t.withEngine T') := by
  induction n generalizing s S' with
  | zero =>
    rw [run_zero] at ht
    cases ht
    exact ⟨S', h, run_zero _⟩
  | succ n ih =>
    obtain ⟨m, hm, hrun⟩ := run_succ_cases ht
    obtain ⟨M', hM, hm'⟩ := step_withEngine_of_varies h hp hm
    obtain ⟨T', hT, hrun'⟩ := ih hM (hp.of_step hm) hrun
    exact ⟨T', hT, by rw [run_of_next hm']; exact hrun'⟩

end Runs

/-- Settles O25: `K` is "KEY is as it was" and `D` is "DATA is as it was", and the two runs go in step. -/
theorem textsReachHostOnlyThroughDigests : Obligations.TextsReachHostOnlyThroughDigests := by
  intro n s t k d hk hd hhmac hsha1 ht
  have hvary : s.engine.Varies (k = s.engine.key) (d = s.engine.data) (s.engine.withTexts k d) :=
    ⟨k, d, rfl, hk, hd, id, id⟩
  have hpend : PendingTextsAgree (k = s.engine.key) (d = s.engine.data) s := by
    intro c i hmem hc
    cases i with
    | hmac w => exact hhmac c w hmem hc
    | sha1 w => exact hsha1 c w hmem hc
    | nop | clr | pushd | pushk | hex | b64 | txt | b64p => trivial
  obtain ⟨T', ⟨k', d', rfl, hk', hd', -⟩, hrun⟩ := run_withEngine_of_varies n hvary hpend ht
  exact ⟨k', d', hk', hd', hrun⟩

/-! ## The host register space (R50 to R53) -/

/-- Settles O21: of the actions that answer a next state (`serve_cases`), the ignored write and the read
leave the engine. -/
theorem onlyCmdWritesAndResetChangeEngine : Obligations.OnlyCmdWritesAndResetChangeEngine := by
  refine ⟨serve_write_cmd, fun i v s hne hle => hostWrite_of_ne_cmd (Nat.lt_succ_of_le hle) hne v s, ?_⟩
  intro e s t hserve hchange
  obtain ⟨c, rfl, -⟩ | ⟨i, v, -, -, -, rfl⟩ | ⟨i, -, -, rfl⟩ | ⟨rfl, -⟩ := serve_cases hserve
  · exact .inr ⟨c, rfl⟩
  · exact absurd rfl hchange
  · exact absurd rfl hchange
  · exact .inl rfl

section RegisterMap

variable (S : Engine)

theorem Engine.readRegister_status :
    S.readRegister 0x01 = BitVec.ofNat 32 (S.err.code + 16 * S.dgv.toNat) := by
  have hcode := S.err.code_lt
  have hdgv := S.dgv.toNat_lt
  change S.status = _
  apply BitVec.eq_of_toNat_eq
  rw [BitVec.toNat_ofNat, S.toNat_status]
  omega

theorem Engine.readRegister_keylen : S.readRegister 0x02 = BitVec.ofNat 32 S.key.length := rfl

theorem Engine.readRegister_datlen : S.readRegister 0x03 = BitVec.ofNat 32 S.data.length := rfl

theorem Engine.readRegister_outlen : S.readRegister 0x04 = BitVec.ofNat 32 S.outlen := rfl

theorem Engine.readRegister_dg {n : Nat} (hn : n < 5) : S.readRegister (0x08 + n) = S.dg.word n := by
  interval_cases n <;> rfl

theorem Engine.readRegister_out {i : Nat} (hi : i < 40) :
    S.readRegister (0x10 + i) = (S.out.toList.getD i 0).setWidth 32 := by
  unfold Engine.readRegister
  repeat rw [if_neg (by omega)]
  rw [if_pos (by omega), Nat.add_sub_cancel_left]

theorem Engine.readRegister_unmapped {i : Nat}
    (hi : i = 0x00 ∨ 0x05 ≤ i ∧ i ≤ 0x07 ∨ 0x0D ≤ i ∧ i ≤ 0x0F ∨ 0x38 ≤ i ∧ i ≤ 0x3F) :
    S.readRegister i = 0 := by
  unfold Engine.readRegister
  repeat rw [if_neg (by omega)]

end RegisterMap

/-- Settles O22: the map register by register; `DG` without a digest and `OUT` beyond `OUTLEN` are zero
by the invariant. -/
theorem readReturnsTheRegisterMap : Obligations.ReadReturnsTheRegisterMap := by
  refine ⟨fun s i hi => hostRead_of_lt (Nat.lt_succ_of_le hi) s, fun S => ?_, fun s hinv => ⟨?_, ?_⟩⟩
  · refine ⟨S.readRegister_status, S.readRegister_keylen, S.readRegister_datlen, S.readRegister_outlen,
      fun n hn => S.readRegister_dg hn, fun i => ?_, fun i hi => S.readRegister_unmapped hi⟩
    rw [S.readRegister_out i.isLt, toList_getD_of_lt _ i.isLt]
    rfl
  · intro hdgv n hn
    rw [Engine.readRegister_dg _ hn, hinv.digest_zero hdgv, Digest.word_zero]
  · intro i hi hbeyond
    rw [Engine.readRegister_out _ hi, hinv.out_tail_zero i hbeyond]
    rfl

/-- R36 item (2): no result string is longer than `OUT`. -/
theorem State.Inv.outlen_le {s : State} (h : s.Inv) : s.engine.outlen ≤ 40 := by
  have hlegal := h.outlen_legal
  simp only [List.mem_cons, List.not_mem_nil, or_false] at hlegal
  omega

/-- Settles O24: the capacities of R6, and 40 for `OUTLEN`, are below `2^32`. -/
theorem lengthRegistersAreExact : Obligations.LengthRegistersAreExact := by
  intro s h
  have hkey := h.key_fits.trans_lt s.cfg.keyMax.isLt
  have hdata := h.data_fits.trans_lt s.cfg.dataMax.isLt
  have hout := h.outlen_le
  simp only [Engine.readRegister_keylen, Engine.readRegister_datlen, Engine.readRegister_outlen,
    BitVec.toNat_ofNat]
  exact ⟨Nat.mod_eq_of_lt (by omega), Nat.mod_eq_of_lt (by omega), Nat.mod_eq_of_lt (by omega)⟩

/-! ## One step -/

theorem decode32_of_decodeTableWord {nbits w : Nat} {i : Instr} (h : decodeTableWord nbits w = some i) :
    decode32 (tableWord nbits w) = .ok i := by
  unfold decodeTableWord at h
  cases hd : decode32 (tableWord nbits w) with
  | error why => rw [hd] at h; cases h
  | ok j => rw [hd] at h; cases h; rfl

/-- Settles O9: the write is served as `Cmd` of its word, and a legal word is executed. -/
theorem stepRunsDecodedInstruction : Obligations.StepRunsDecodedInstruction := by
  have hrun : ∀ (s : State) (c : Word) (rest : List HostEvent) (i : Instr),
      s.pending = .write 0x00 c :: rest → decode32 c = .ok i →
        step s = exec i { s with pending := rest } := by
    intro s c rest i hpend hc
    rw [step_of_pending hpend, serve_write_cmd, command_of_legal hc]
  exact ⟨hrun, fun s w i hw =>
    hrun (s.withFetchWord 32 w) _ s.pending i rfl (decode32_of_decodeTableWord hw)⟩

theorem hostWrite_eq_fault_iff {i : Nat} {v : Word} {s : State} {f : Fault} :
    hostWrite i v s = .fault f ↔ f = .noSuchRegister i ∧ 0x3F < i := by
  by_cases hi : i < registerCount
  · have hle : ¬ 0x3F < i := Nat.not_lt.mpr (Nat.le_of_lt_succ hi)
    have hnext : ∃ t, hostWrite i v s = .next t := by
      by_cases hcmd : i = cmdIndex
      · obtain ⟨S, hS⟩ := command_next v s
        exact ⟨_, by rw [hostWrite, if_pos hi, if_pos hcmd, hS]⟩
      · exact ⟨s, hostWrite_of_ne_cmd hi hcmd v s⟩
    obtain ⟨t, ht⟩ := hnext
    simp [ht, hle]
  · have hgt : 0x3F < i := Nat.not_lt.mp hi
    simp [hostWrite, hi, hgt, eq_comm]

theorem hostRead_eq_fault_iff {i : Nat} {s : State} {f : Fault} :
    hostRead i s = .fault f ↔ f = .noSuchRegister i ∧ 0x3F < i := by
  by_cases hi : i < registerCount
  · have hle : ¬ 0x3F < i := Nat.not_lt.mpr (Nat.le_of_lt_succ hi)
    simp [hostRead_of_lt hi, hle]
  · have hgt : 0x3F < i := Nat.not_lt.mp hi
    simp [hostRead, hi, hgt, eq_comm]

/-- Settles O11, by the kind of the oldest action. -/
theorem stepFaultsOnlyOutsideRegisterSpace : Obligations.StepFaultsOnlyOutsideRegisterSpace := by
  intro s f
  cases hpend : s.pending with
  | nil => simp [step, serveNext, hpend]
  | cons e rest =>
    rw [step_of_pending hpend]
    cases e with
    | reset => simp [serve, hostReset]
    | write i v =>
      simp [serve, hostWrite_eq_fault_iff]
    | read i =>
      simp [serve, hostRead_eq_fault_iff]

end Sys2Proof.Machine
end

section
/-! PROOFS. Encoding (spec/30_encoding.md). The command word: its fields determine it, a word decodes to an
instruction exactly when it has the instruction's fields, and what follows for the encoder (O1, O2, O7), the
opcode map (O3), the illegal words (O5) and the number of legal ones (O4). The whole calls of the source's
functions: from any state, the host's commands leave the rendering in the engine and the host's reads return
it (O57, O58). -/

namespace Sys2Proof

open Laws.EncodedFields (opcodeOf modeOf immOf)

/-! ## The fields of a word (R70) -/

section Fields

variable (c : Word)

theorem toNat_opcField : (opcField c).toNat = c.toNat / 2 ^ 24 := by
  rw [opcField, BitVec.extractLsb'_toNat, Nat.shiftRight_eq_div_pow]
  omega

theorem toNat_rsvField : (rsvField c).toNat = c.toNat / 2 ^ 17 % 2 ^ 7 := by
  rw [rsvField, BitVec.extractLsb'_toNat, Nat.shiftRight_eq_div_pow]

theorem toNat_modeField : (modeField c).toNat = c.toNat / 2 ^ 16 % 2 := by
  rw [modeField, BitVec.getLsbD, Nat.toNat_testBit]

theorem toNat_immField : (immField c).toNat = c.toNat % 2 ^ 16 := by
  rw [immField, BitVec.extractLsb'_toNat, Nat.shiftRight_zero]

end Fields

/-- The four fields cover the word. -/
theorem eq_of_fields_eq {c d : Word} (hopc : opcField c = opcField d) (hrsv : rsvField c = rsvField d)
    (hmode : modeField c = modeField d) (himm : immField c = immField d) : c = d := by
  have hopc := congrArg BitVec.toNat hopc
  have hrsv := congrArg BitVec.toNat hrsv
  have hmode := congrArg Bool.toNat hmode
  have himm := congrArg BitVec.toNat himm
  simp only [toNat_opcField, toNat_rsvField, toNat_modeField, toNat_immField] at hopc hrsv hmode himm
  apply BitVec.eq_of_toNat_eq
  omega

/-! ## The decoder by fields (R71 to R75) -/

/-- The word `c` has the fields of the instruction `i`, zero where the instruction has none. -/
structure FieldsOf (c : Word) (i : Instr) : Prop where
  opc : opcField c = opcodeOf i
  rsv : rsvField c = 0
  mode : modeField c = modeOf i
  imm : immField c = immOf i

theorem fieldsOf_encode (i : Instr) : FieldsOf (encode i) i := by
  have hstatement : Laws.EncodedFields.Statement i := by
    cases i with
    | nop => exact Laws.EncodedFields.nop
    | clr => exact Laws.EncodedFields.clr
    | pushd ch => exact Laws.EncodedFields.pushd ch
    | pushk ch => exact Laws.EncodedFields.pushk ch
    | sha1 w => exact Laws.EncodedFields.sha1 w
    | hmac w => exact Laws.EncodedFields.hmac w
    | hex u => exact Laws.EncodedFields.hex u
    | b64 => exact Laws.EncodedFields.b64
    | txt w => exact Laws.EncodedFields.txt w
    | b64p ch => exact Laws.EncodedFields.b64p ch
  obtain ⟨hopc, hrsv, hmode, himm⟩ := hstatement
  exact ⟨hopc, hrsv, hmode, himm⟩

/-- Only its own word has the fields of an instruction. -/
theorem fieldsOf_iff_encode_eq {c : Word} {i : Instr} : FieldsOf c i ↔ encode i = c := by
  constructor
  · intro h
    have h' := fieldsOf_encode i
    exact eq_of_fields_eq (h'.opc.trans h.opc.symm) (h'.rsv.trans h.rsv.symm)
      (h'.mode.trans h.mode.symm) (h'.imm.trans h.imm.symm)
  · rintro rfl
    exact fieldsOf_encode i

@[simp] theorem Width.mode_ofMode (m : Bool) : (Width.ofMode m).mode = m := by cases m <;> rfl
@[simp] theorem HexCase.mode_ofMode (m : Bool) : (HexCase.ofMode m).mode = m := by cases m <;> rfl

section Formats

variable {c : Word} {i : Instr}

theorem decodeZ_eq_ok_iff {j : Instr} :
    decodeZ c j = .ok i ↔ rsvField c = 0 ∧ modeField c = false ∧ immField c = 0 ∧ j = i := by
  unfold decodeZ
  split_ifs with hrsv hmode himm
  · exact iff_of_false nofun fun ⟨h, _⟩ => hrsv h
  · exact iff_of_false nofun fun ⟨_, h, _⟩ => Bool.eq_false_iff.mp h hmode
  · exact iff_of_false nofun fun ⟨_, _, h, _⟩ => himm h
  · simp only [Except.ok.injEq, not_not.mp hrsv, Bool.eq_false_iff.mpr hmode, not_not.mp himm, true_and]

theorem decodeC_eq_ok_iff {mk : Character → Instr} :
    decodeC c mk = .ok i ↔ rsvField c = 0 ∧ modeField c = false ∧ mk (immField c) = i := by
  unfold decodeC
  split_ifs with hrsv hmode
  · exact iff_of_false nofun fun ⟨h, _⟩ => hrsv h
  · exact iff_of_false nofun fun ⟨_, h, _⟩ => Bool.eq_false_iff.mp h hmode
  · simp only [Except.ok.injEq, not_not.mp hrsv, Bool.eq_false_iff.mpr hmode, true_and]

theorem decodeM_eq_ok_iff {mk : Bool → Instr} :
    decodeM c mk = .ok i ↔ rsvField c = 0 ∧ immField c = 0 ∧ mk (modeField c) = i := by
  unfold decodeM
  split_ifs with hrsv himm
  · exact iff_of_false nofun fun ⟨h, _⟩ => hrsv h
  · exact iff_of_false nofun fun ⟨_, h, _⟩ => himm h
  · simp only [Except.ok.injEq, not_not.mp hrsv, not_not.mp himm, true_and]

theorem FieldsOf.of_decodeZ {j : Instr} (h : decodeZ c j = .ok i) (hopc : opcField c = opcodeOf j)
    (hmode : modeOf j = false) (himm : immOf j = 0) : FieldsOf c i := by
  obtain ⟨hr, hm, hi, rfl⟩ := decodeZ_eq_ok_iff.mp h
  exact ⟨hopc, hr, hm.trans hmode.symm, hi.trans himm.symm⟩

theorem FieldsOf.of_decodeC {mk : Character → Instr} (h : decodeC c mk = .ok i)
    (hopc : ∀ ch, opcField c = opcodeOf (mk ch)) (hmode : ∀ ch, modeOf (mk ch) = false)
    (himm : ∀ ch, immOf (mk ch) = ch) : FieldsOf c i := by
  obtain ⟨hr, hm, rfl⟩ := decodeC_eq_ok_iff.mp h
  exact ⟨hopc _, hr, hm.trans (hmode _).symm, (himm _).symm⟩

theorem FieldsOf.of_decodeM {mk : Bool → Instr} (h : decodeM c mk = .ok i)
    (hopc : ∀ m, opcField c = opcodeOf (mk m)) (hmode : ∀ m, modeOf (mk m) = m)
    (himm : ∀ m, immOf (mk m) = 0) : FieldsOf c i := by
  obtain ⟨hr, hi, rfl⟩ := decodeM_eq_ok_iff.mp h
  exact ⟨hopc _, hr, (hmode _).symm, hi.trans (himm _).symm⟩

/-- Whatever the decoder answers has the fields of the word, by the row of the opcode. -/
theorem fieldsOf_of_decode32 (h : decode32 c = .ok i) : FieldsOf c i := by
  unfold decode32 at h
  obtain ⟨hopc, h⟩ | ⟨-, h⟩ := ite_eq_iff.mp h
  · exact .of_decodeZ h hopc rfl rfl
  obtain ⟨hopc, h⟩ | ⟨-, h⟩ := ite_eq_iff.mp h
  · exact .of_decodeZ h hopc rfl rfl
  obtain ⟨hopc, h⟩ | ⟨-, h⟩ := ite_eq_iff.mp h
  · exact .of_decodeC h (fun _ => hopc) (fun _ => rfl) (fun _ => rfl)
  obtain ⟨hopc, h⟩ | ⟨-, h⟩ := ite_eq_iff.mp h
  · exact .of_decodeC h (fun _ => hopc) (fun _ => rfl) (fun _ => rfl)
  obtain ⟨hopc, h⟩ | ⟨-, h⟩ := ite_eq_iff.mp h
  · exact .of_decodeM h (fun _ => hopc) Width.mode_ofMode (fun _ => rfl)
  obtain ⟨hopc, h⟩ | ⟨-, h⟩ := ite_eq_iff.mp h
  · exact .of_decodeM h (fun _ => hopc) Width.mode_ofMode (fun _ => rfl)
  obtain ⟨hopc, h⟩ | ⟨-, h⟩ := ite_eq_iff.mp h
  · exact .of_decodeM h (fun _ => hopc) HexCase.mode_ofMode (fun _ => rfl)
  obtain ⟨hopc, h⟩ | ⟨-, h⟩ := ite_eq_iff.mp h
  · exact .of_decodeZ h hopc rfl rfl
  obtain ⟨hopc, h⟩ | ⟨-, h⟩ := ite_eq_iff.mp h
  · exact .of_decodeM h (fun _ => hopc) Width.mode_ofMode (fun _ => rfl)
  obtain ⟨hopc, h⟩ | ⟨-, h⟩ := ite_eq_iff.mp h
  · exact .of_decodeC h (fun _ => hopc) (fun _ => rfl) (fun _ => rfl)
  cases h

/-- A word with the fields of an instruction passes every check of the instruction's format. -/
theorem FieldsOf.decode32_eq (h : FieldsOf c i) : decode32 c = .ok i := by
  obtain ⟨hopc, hrsv, hmode, himm⟩ := h
  cases i with
  | nop | clr | b64 =>
    simp only [decode32, hopc, opcodeOf, BitVec.ofNat_eq_ofNat, BitVec.reduceEq, if_true, if_false]
    exact decodeZ_eq_ok_iff.mpr ⟨hrsv, hmode, himm, rfl⟩
  | pushd | pushk | b64p =>
    simp only [decode32, hopc, opcodeOf, BitVec.ofNat_eq_ofNat, BitVec.reduceEq, if_true, if_false]
    exact decodeC_eq_ok_iff.mpr ⟨hrsv, hmode, congrArg _ himm⟩
  | sha1 | hmac | hex | txt =>
    simp only [decode32, hopc, opcodeOf, BitVec.ofNat_eq_ofNat, BitVec.reduceEq, if_true, if_false]
    exact decodeM_eq_ok_iff.mpr ⟨hrsv, himm, by simp [hmode, modeOf]⟩

theorem decode32_eq_ok_iff : decode32 c = .ok i ↔ FieldsOf c i :=
  ⟨fieldsOf_of_decode32, FieldsOf.decode32_eq⟩

end Formats

/-- Settles O1: the word of an instruction has the instruction's fields. -/
theorem decodeOfEncodeIsIdentity : Obligations.DecodeOfEncodeIsIdentity :=
  fun i => (fieldsOf_encode i).decode32_eq

/-- Settles O2: a word that decodes to an instruction has its fields, as only one word does. -/
theorem encodeOfDecodeIsIdentity : Obligations.EncodeOfDecodeIsIdentity :=
  fun _ _ h => fieldsOf_iff_encode_eq.mp (fieldsOf_of_decode32 h)

/-- Settles O7: the words without a character are computed, the format C ones are the encoder's formula. -/
theorem assemblerWords : Obligations.AssemblerWords :=
  ⟨rfl, rfl, rfl, rfl, rfl, rfl, rfl, rfl, rfl, rfl, rfl, fun _ => ⟨rfl, rfl, rfl⟩⟩

/-! ## The opcode map (R74) and the legal words (R76) -/

section Masks

variable {c mask pattern : Word}

/-- A masked word is the pattern when it is field by field. -/
theorem and_mask_eq_iff : c &&& mask = pattern ↔
    opcField c &&& opcField mask = opcField pattern ∧ rsvField c &&& rsvField mask = rsvField pattern ∧
      (modeField c && modeField mask) = modeField pattern ∧
      immField c &&& immField mask = immField pattern := by
  have hand : opcField (c &&& mask) = opcField c &&& opcField mask ∧
      rsvField (c &&& mask) = rsvField c &&& rsvField mask ∧
      modeField (c &&& mask) = (modeField c && modeField mask) ∧
      immField (c &&& mask) = immField c &&& immField mask :=
    ⟨BitVec.extractLsb'_and, BitVec.extractLsb'_and, BitVec.getLsbD_and, BitVec.extractLsb'_and⟩
  obtain ⟨hopc, hrsv, hmode, himm⟩ := hand
  rw [← hopc, ← hrsv, ← hmode, ← himm]
  constructor
  · rintro rfl
    exact ⟨rfl, rfl, rfl, rfl⟩
  · rintro ⟨hopc, hrsv, hmode, himm⟩
    exact eq_of_fields_eq hopc hrsv hmode himm

end Masks

/-- The three formats of R71 to R73. -/
inductive CommandFormat where
  | z
  | c
  | m
deriving DecidableEq

/-- The format of a command (R74). -/
def formatOf : Instr → CommandFormat
  | .nop | .clr | .b64 => .z
  | .pushd _ | .pushk _ | .b64p _ => .c
  | .sha1 _ | .hmac _ | .hex _ | .txt _ => .m

/-- The bits that are the same in every word of a command: all but its operand's. -/
def CommandFormat.mask : CommandFormat → Word
  | .z => 0xFFFFFFFF
  | .c => 0xFFFF0000
  | .m => 0xFFFEFFFF

/-- A mask holds the opcode and the reserved bits, the mode bit but in format M, the immediate but in
format C. -/
theorem CommandFormat.fields_mask (f : CommandFormat) :
    opcField f.mask = .allOnes 8 ∧ rsvField f.mask = .allOnes 7 ∧
      modeField f.mask = decide (f ≠ .m) ∧ immField f.mask = if f = .c then 0 else .allOnes 16 := by
  cases f <;> decide

/-- The same command with the operand that a mode bit and an immediate spell. -/
def Instr.withOperand (m : Bool) (ch : Character) : Instr → Instr
  | .nop => .nop
  | .clr => .clr
  | .pushd _ => .pushd ch
  | .pushk _ => .pushk ch
  | .sha1 _ => .sha1 (Width.ofMode m)
  | .hmac _ => .hmac (Width.ofMode m)
  | .hex _ => .hex (HexCase.ofMode m)
  | .b64 => .b64
  | .txt _ => .txt (Width.ofMode m)
  | .b64p _ => .b64p ch

/-- `c` spells `i` up to the value of the operand: the opcode is that of `i`, and what is not an operand
of the format is zero. -/
structure SpellsCommand (c : Word) (i : Instr) : Prop where
  opc : opcField c = opcodeOf i
  rsv : rsvField c = 0
  mode : formatOf i ≠ .m → modeField c = false
  imm : formatOf i ≠ .c → immField c = 0

section Spelling

variable {c : Word} {i : Instr}

theorem FieldsOf.spellsCommand (h : FieldsOf c i) : SpellsCommand c i := by
  obtain ⟨hopc, hrsv, hmode, himm⟩ := h
  refine ⟨hopc, hrsv, fun hf => ?_, fun hf => ?_⟩
  · rw [hmode]
    cases i with
    | nop | clr | pushd | pushk | b64 | b64p => rfl
    | sha1 | hmac | hex | txt => exact absurd rfl hf
  · rw [himm]
    cases i with
    | nop | clr | sha1 | hmac | hex | b64 | txt => rfl
    | pushd | pushk | b64p => exact absurd rfl hf

theorem SpellsCommand.fieldsOf_withOperand (h : SpellsCommand c i) :
    FieldsOf c (i.withOperand (modeField c) (immField c)) := by
  obtain ⟨hopc, hrsv, hmode, himm⟩ := h
  cases i with
  | nop | clr | b64 => exact ⟨hopc, hrsv, hmode nofun, himm nofun⟩
  | pushd | pushk | b64p => exact ⟨hopc, hrsv, hmode nofun, rfl⟩
  | sha1 | hmac | txt => exact ⟨hopc, hrsv, (Width.mode_ofMode _).symm, himm nofun⟩
  | hex => exact ⟨hopc, hrsv, (HexCase.mode_ofMode _).symm, himm nofun⟩

theorem spellsCommand_iff : SpellsCommand c i ↔ opcField c = opcodeOf i ∧ rsvField c = 0 ∧
    (formatOf i ≠ .m → modeField c = false) ∧ (formatOf i ≠ .c → immField c = 0) :=
  ⟨fun ⟨hopc, hrsv, hmode, himm⟩ => ⟨hopc, hrsv, hmode, himm⟩,
    fun ⟨hopc, hrsv, hmode, himm⟩ => ⟨hopc, hrsv, hmode, himm⟩⟩

/-- A word spells a command when its bits under the mask of the format are the opcode's. -/
theorem and_mask_eq_encodeZ_iff : c &&& (formatOf i).mask = encodeZ (opcodeOf i) ↔ SpellsCommand c i := by
  have hpattern : encodeZ (opcodeOf i) = encodeC (opcodeOf i) 0 := by simp [encodeZ, encodeC]
  obtain ⟨hopc, hrsv, hmode, himm⟩ := Laws.EncodedFields.fields_encodeC (opcodeOf i) 0
  obtain ⟨hopcMask, hrsvMask, hmodeMask, himmMask⟩ := (formatOf i).fields_mask
  rw [hpattern, and_mask_eq_iff, hopc, hrsv, hmode, himm, hopcMask, hrsvMask, hmodeMask, himmMask,
    BitVec.and_allOnes, BitVec.and_allOnes, spellsCommand_iff]
  cases formatOf i <;> simp [-BitVec.reduceAllOnes]

end Spelling

/-! ### The rows -/

/-- The row of R74 that a command belongs to. -/
def Instr.row (i : Instr) : OpcodeRow := ⟨i.mnemonic, encodeZ (opcodeOf i), (formatOf i).mask⟩

@[simp] theorem row_withOperand (i : Instr) (m : Bool) (ch : Character) :
    (i.withOperand m ch).row = i.row := by cases i <;> rfl

/-- The ten commands, each with one value of its operand, in R74's order. -/
def commands : List Instr :=
  [.nop, .clr, .pushd 0, .pushk 0, .sha1 .w8, .hmac .w8, .hex .lower, .b64, .txt .w8, .b64p 0]

theorem withOperand_mem_commands (i : Instr) : i.withOperand false 0 ∈ commands := by
  cases i <;> simp [commands, Instr.withOperand, Width.ofMode, HexCase.ofMode]

theorem opcodeMap_eq_map_row : opcodeMap = commands.map Instr.row := by decide

theorem row_mem_opcodeMap (i : Instr) : i.row ∈ opcodeMap := by
  rw [opcodeMap_eq_map_row, ← row_withOperand i false 0]
  exact List.mem_map_of_mem (withOperand_mem_commands i)

/-- No two rows have one mnemonic. -/
theorem row_eq_of_mnemonic_eq {i j : Instr} (h : i.mnemonic = j.mnemonic) : i.row = j.row := by
  have hdistinct : ∀ r ∈ opcodeMap, ∀ r' ∈ opcodeMap, r.mnemonic = r'.mnemonic → r = r' := by decide
  exact hdistinct _ (row_mem_opcodeMap i) _ (row_mem_opcodeMap j) h

/-- Settles O3: each row is that of a command, and a word matches it when it spells the command. -/
theorem opcodeMapDecidesTheCommand : Obligations.OpcodeMapDecidesTheCommand := by
  intro r hr c
  rw [opcodeMap_eq_map_row] at hr
  obtain ⟨i, -, rfl⟩ := List.mem_map.mp hr
  constructor
  · intro hmatch
    have hspells : SpellsCommand c i := and_mask_eq_encodeZ_iff.mp hmatch
    exact ⟨_, hspells.fieldsOf_withOperand.decode32_eq,
      congrArg OpcodeRow.mnemonic (row_withOperand i _ _)⟩
  · rintro ⟨j, hj, hmnemonic⟩
    rw [← row_eq_of_mnemonic_eq hmnemonic]
    exact and_mask_eq_encodeZ_iff.mpr (fieldsOf_of_decode32 hj).spellsCommand

/-! ### The illegal words -/

theorem opcodeOf_withOperand (i : Instr) (m : Bool) (ch : Character) :
    opcodeOf (i.withOperand m ch) = opcodeOf i := by cases i <;> rfl

theorem formatOf_withOperand (i : Instr) (m : Bool) (ch : Character) :
    formatOf (i.withOperand m ch) = formatOf i := by cases i <;> rfl

/-- A word is legal when it spells one of the ten commands. -/
theorem exists_decode32_eq_ok_iff {c : Word} :
    (∃ i, decode32 c = .ok i) ↔ ∃ k ∈ commands, SpellsCommand c k := by
  constructor
  · rintro ⟨i, hi⟩
    obtain ⟨hopc, hrsv, hmode, himm⟩ := (fieldsOf_of_decode32 hi).spellsCommand
    refine ⟨_, withOperand_mem_commands i, ?_, hrsv, ?_, ?_⟩
    · rwa [opcodeOf_withOperand]
    · rwa [formatOf_withOperand]
    · rwa [formatOf_withOperand]
  · rintro ⟨k, -, hk⟩
    exact ⟨_, hk.fieldsOf_withOperand.decode32_eq⟩

theorem exists_decode32_eq_error_iff {c : Word} :
    (∃ why, decode32 c = .error why) ↔ ¬ ∃ i, decode32 c = .ok i := by
  cases decode32 c <;> simp

/-- Given its opcode, a word is legal when the other fields are as the opcode's command has them. -/
theorem exists_decode32_eq_ok_iff_of_opcode {c : Word} {k : Instr} (hk : k ∈ commands)
    (hopc : opcField c = opcodeOf k) : (∃ i, decode32 c = .ok i) ↔ SpellsCommand c k := by
  have hdistinct : ∀ k ∈ commands, ∀ k' ∈ commands, opcodeOf k = opcodeOf k' → k = k' := by decide
  rw [exists_decode32_eq_ok_iff]
  constructor
  · rintro ⟨k', hk', hspells⟩
    rwa [hdistinct k hk k' hk' (hopc.symm.trans hspells.opc)]
  · exact fun hspells => ⟨k, hk, hspells⟩

/-- The fields, as numbers, on which a word with the opcode of a command does not spell it. -/
theorem not_spellsCommand_iff {c : Word} {k : Instr} (hopc : opcField c = opcodeOf k) :
    ¬ SpellsCommand c k ↔ (rsvField c).toNat ≠ 0 ∨ (modeField c).toNat = 1 ∧ formatOf k ≠ .m ∨
      (immField c).toNat ≠ 0 ∧ formatOf k ≠ .c := by
  have hrsv : rsvField c = 0 ↔ (rsvField c).toNat = 0 := BitVec.toNat_eq
  have himm : immField c = 0 ↔ (immField c).toNat = 0 := BitVec.toNat_eq
  have hmode : modeField c = false ↔ ¬ (modeField c).toNat = 1 := by cases modeField c <;> decide
  rw [spellsCommand_iff, hrsv, himm, hmode]
  simp only [hopc, true_and, not_and_or, Classical.not_imp, not_not, and_comm, or_comm, ne_eq]

/-- The opcodes of the ten commands, and R76's lists of those of format Z or C and of format Z or M. -/
theorem opcode_lists : ∀ k ∈ commands,
    (opcodeOf k).toNat ∈ [0x00, 0x01, 0x02, 0x03, 0x10, 0x11, 0x20, 0x21, 0x22, 0x23] ∧
    ((opcodeOf k).toNat ∈ [0x00, 0x01, 0x21, 0x02, 0x03, 0x23] ↔ formatOf k ≠ .m) ∧
    ((opcodeOf k).toNat ∈ [0x00, 0x01, 0x21, 0x10, 0x11, 0x20, 0x22] ↔ formatOf k ≠ .c) := by decide

theorem exists_command_of_opcode_mem {c : Word}
    (h : (opcField c).toNat ∈ [0x00, 0x01, 0x02, 0x03, 0x10, 0x11, 0x20, 0x21, 0x22, 0x23]) :
    ∃ k ∈ commands, opcField c = opcodeOf k := by
  have hcodes : [0x00, 0x01, 0x02, 0x03, 0x10, 0x11, 0x20, 0x21, 0x22, 0x23] =
      commands.map fun k => (opcodeOf k).toNat := rfl
  rw [hcodes] at h
  obtain ⟨k, hk, hopc⟩ := List.mem_map.mp h
  exact ⟨k, hk, BitVec.eq_of_toNat_eq hopc.symm⟩

/-- Settles O5, by whether the opcode is that of a command `k`: if so, the word is legal when it spells
`k`, and R76's lists say what the format of `k` demands; if not, it spells none. -/
theorem illegalWordsAreExactlyThese : Obligations.IllegalWordsAreExactlyThese := by
  intro c
  rw [exists_decode32_eq_error_iff, ← toNat_opcField, ← toNat_rsvField, ← toNat_modeField,
    ← toNat_immField]
  by_cases hcommand : ∃ k ∈ commands, opcField c = opcodeOf k
  · obtain ⟨k, hk, hopc⟩ := hcommand
    obtain ⟨hten, hzc, hzm⟩ := opcode_lists k hk
    rw [exists_decode32_eq_ok_iff_of_opcode hk hopc, not_spellsCommand_iff hopc, hopc, hzc, hzm,
      or_iff_right (not_not_intro hten)]
  · have hillegal : ¬ ∃ i, decode32 c = .ok i := by
      rw [exists_decode32_eq_ok_iff]
      exact fun ⟨k, hk, hspells⟩ => hcommand ⟨k, hk, hspells.opc⟩
    exact iff_of_true hillegal (.inl fun hmem => hcommand (exists_command_of_opcode_mem hmem))

/-! ### The number of legal words -/

/-- The instructions counted by format: three without an operand, three with a character, four with a mode
bit. -/
def instrEquiv : Instr ≃ Fin 3 ⊕ Fin 3 × Character ⊕ Fin 4 × Bool where
  toFun
    | .nop => .inl 0
    | .clr => .inl 1
    | .b64 => .inl 2
    | .pushd ch => .inr (.inl (0, ch))
    | .pushk ch => .inr (.inl (1, ch))
    | .b64p ch => .inr (.inl (2, ch))
    | .sha1 w => .inr (.inr (0, w.mode))
    | .hmac w => .inr (.inr (1, w.mode))
    | .hex u => .inr (.inr (2, u.mode))
    | .txt w => .inr (.inr (3, w.mode))
  invFun
    | .inl 0 => .nop
    | .inl 1 => .clr
    | .inl 2 => .b64
    | .inr (.inl (0, ch)) => .pushd ch
    | .inr (.inl (1, ch)) => .pushk ch
    | .inr (.inl (2, ch)) => .b64p ch
    | .inr (.inr (0, m)) => .sha1 (Width.ofMode m)
    | .inr (.inr (1, m)) => .hmac (Width.ofMode m)
    | .inr (.inr (2, m)) => .hex (HexCase.ofMode m)
    | .inr (.inr (3, m)) => .txt (Width.ofMode m)
  left_inv i := by
    cases i with
    | nop | clr | b64 | pushd | pushk | b64p => rfl
    | sha1 w | hmac w | txt w => exact congrArg _ w.ofMode_mode
    | hex u => exact congrArg _ u.ofMode_mode
  right_inv x := by
    obtain n | ⟨n, ch⟩ | ⟨n, m⟩ := x
    · fin_cases n <;> rfl
    · fin_cases n <;> rfl
    · fin_cases n <;> cases m <;> rfl

theorem card_instr : Nat.card Instr = 196619 := by
  have hchar : Nat.card Character = 2 ^ 16 := by
    rw [Nat.card_congr BitVec.equivFin.toEquiv, Nat.card_fin]
  simp only [Nat.card_congr instrEquiv, Nat.card_sum, Nat.card_prod, hchar, Nat.card_fin,
    Nat.card_eq_fintype_card (α := Bool), Fintype.card_bool, Nat.reducePow, Nat.reduceMul, Nat.reduceAdd]

/-- Settles O4: the legal words are the words of the instructions, one for each. -/
theorem legalCommandWordCount : Obligations.LegalCommandWordCount := by
  have hlegal : {c : Word | ∃ i, decode32 c = .ok i} = Set.range encode := by
    ext c
    simp only [Set.mem_ofPred_eq, Set.mem_range, decode32_eq_ok_iff, fieldsOf_iff_encode_eq]
  have hinj : Function.Injective encode := fun i j h => by
    have hi := decodeOfEncodeIsIdentity i
    rw [h, decodeOfEncodeIsIdentity j] at hi
    exact (Except.ok.inj hi).symm
  unfold Obligations.LegalCommandWordCount
  rw [hlegal, ← Nat.card_coe_set_eq, Nat.card_range_of_injective hinj, card_instr]

end Sys2Proof

namespace Sys2Proof.Machine

/-! ## Runs over the actions of a call -/

/-- What the commands `is`, written to CMD one after the other, leave of an engine. -/
def runCommands (cfg : Config) (S : Engine) (is : List Instr) : Engine :=
  is.foldl (fun S i => stepR100 cfg S (encode i)) S

section Runs

variable (s : State)

/-- The commands at the front of the pending actions are served first, one a step. -/
theorem run_commandWrites (is : List Instr) (rest : List HostEvent) (n : Nat) :
    Sys2Proof.core.run (is.length + n) { s with pending := is.map commandWrite ++ rest } =
      Sys2Proof.core.run n { s with engine := runCommands s.cfg s.engine is, pending := rest } := by
  induction is generalizing s with
  | nil => rw [List.length_nil, Nat.zero_add]; rfl
  | cons i is ih =>
    rw [List.length_cons, Nat.add_right_comm, run_of_next (step_of_cmd_write rfl)]
    exact ih { s with engine := stepR100 s.cfg s.engine (encode i) }

/-- Reads of the register space return the registers in order and leave the engine. -/
theorem run_reads (ixs : List Nat) (h : ∀ i ∈ ixs, i < registerCount) :
    Sys2Proof.core.run ixs.length { s with pending := ixs.map .read } =
      .next { s with pending := [], replies := s.replies ++ ixs.map s.engine.readRegister } := by
  induction ixs generalizing s with
  | nil => rw [List.length_nil, run_zero, List.map_nil, List.map_nil, List.append_nil]
  | cons i ixs ih =>
    obtain ⟨hi, hixs⟩ := List.forall_mem_cons.mp h
    have hstep : step { s with pending := (i :: ixs).map .read } =
        .next { s with pending := ixs.map .read, replies := s.replies ++ [s.engine.readRegister i] } := by
      rw [step_of_pending List.map_cons, serve, hostRead_of_lt hi]
    rw [List.length_cons, run_of_next hstep,
      ih { s with replies := s.replies ++ [s.engine.readRegister i] } hixs, List.append_assoc]
    rfl

end Runs

/-! ## What the commands of a call do to the engine -/

section Commands

variable (cfg : Config)

/-- The word of a command has the command's effect on an engine that is not locked. -/
theorem stepR100_encode_of_good {S : Engine} (h : S.err = .eNone) (i : Instr) :
    stepR100 cfg S (encode i) = effect cfg i S := by
  have hdecode := decodeOfEncodeIsIdentity i
  by_cases hi : i = .clr
  · subst hi
    exact stepR100_clr hdecode cfg S
  · rw [stepR100_legal hdecode hi, if_neg (not_not_intro h)]

/-- CLR is obeyed whatever the state (R102). -/
theorem runCommands_clr (S : Engine) (is : List Instr) :
    runCommands cfg S (.clr :: is) = runCommands cfg Engine.reset is := by
  rw [runCommands, List.foldl_cons, stepR100_clr (decodeOfEncodeIsIdentity .clr)]
  rfl

theorem runCommands_append (S : Engine) (is js : List Instr) :
    runCommands cfg S (is ++ js) = runCommands cfg (runCommands cfg S is) js := List.foldl_append

theorem runCommands_cons_of_good {S : Engine} (h : S.err = .eNone) (i : Instr) (is : List Instr) :
    runCommands cfg S (i :: is) = runCommands cfg (effect cfg i S) is := by
  rw [runCommands, List.foldl_cons, stepR100_encode_of_good cfg h]
  rfl

/-- A text that fits behind DATA is appended whole (R80, R103). -/
theorem runCommands_pushds {S : Engine} (h : S.err = .eNone) (text : Text)
    (hfit : S.data.length + text.length ≤ cfg.dataMax.val) :
    runCommands cfg S (pushds text) = { S with data := S.data ++ text } := by
  induction text generalizing S with
  | nil => simp [pushds, runCommands]
  | cons ch text ih =>
    rw [List.length_cons] at hfit
    have hroom : S.data.length ≠ cfg.dataMax.val := by omega
    rw [pushds, List.map_cons, runCommands_cons_of_good cfg h, effect, Engine.appendData_of_room ch hroom,
      ← pushds, ih (S := { S with data := S.data ++ [ch] }) h (by simp; omega)]
    simp

/-- A text that fits behind KEY is appended whole (R80, R104). -/
theorem runCommands_pushks {S : Engine} (h : S.err = .eNone) (text : Text)
    (hfit : S.key.length + text.length ≤ cfg.keyMax.val) :
    runCommands cfg S (pushks text) = { S with key := S.key ++ text } := by
  induction text generalizing S with
  | nil => simp [pushks, runCommands]
  | cons ch text ih =>
    rw [List.length_cons] at hfit
    have hroom : S.key.length ≠ cfg.keyMax.val := by omega
    rw [pushks, List.map_cons, runCommands_cons_of_good cfg h, effect, Engine.appendKey_of_room ch hroom,
      ← pushks, ih (S := { S with key := S.key ++ [ch] }) h (by simp; omega)]
    simp

/-- The encoder command of a rendering emits the rendering of the digest (R81, R178). -/
theorem effect_rendering (w : Width) (r : Rendering) (S : Engine) :
    effect cfg (r.instr w) S = S.emit (r.result w S.dg) := by
  cases r with
  | hex u => rfl
  | base64 padding => cases padding <;> rfl
  | raw => rfl

/-- The engine of `S0` with a key and a text, a digest and a result string. -/
def Engine.rendered (key text : Text) (D : Digest) (R : Text) : Engine where
  key := key
  data := text
  dg := D
  dgv := true
  out := outImage R
  outlen := R.length
  err := .eNone

/-- A digest command and the encoder command leave the rendering of the digest. -/
theorem runCommands_digest_rendering {S : Engine} (h : S.err = .eNone) {i : Instr} {D : Digest}
    (hi : effect cfg i S = S.setDigest D) (w : Width) (r : Rendering) :
    runCommands cfg S [i, r.instr w] = Engine.rendered S.key S.data D (r.result w D) := by
  rw [runCommands_cons_of_good cfg h, hi, runCommands_cons_of_good cfg (S := S.setDigest D) h,
    effect_rendering, Engine.emit_of_valid _ rfl, Engine.setDigest_dg]
  simp only [runCommands, List.foldl_nil, Engine.rendered, Engine.setDigest, h]

/-- `S0` with a key and a text in the buffers. -/
def Engine.loaded (key text : Text) : Engine := { Engine.reset with key := key, data := text }

theorem runCommands_clr_pushds (S : Engine) {text : Text} (htext : text.length ≤ cfg.dataMax.val) :
    runCommands cfg S (.clr :: pushds text) = Engine.loaded [] text := by
  rw [runCommands_clr, runCommands_pushds cfg rfl text (by simpa using htext)]
  rfl

theorem runCommands_clr_pushks_pushds (S : Engine) {key text : Text} (hkey : key.length ≤ cfg.keyMax.val)
    (htext : text.length ≤ cfg.dataMax.val) :
    runCommands cfg S (.clr :: pushks key ++ pushds text) = Engine.loaded key text := by
  rw [List.cons_append, runCommands_clr, runCommands_append,
    runCommands_pushks cfg rfl key (by simpa using hkey),
    runCommands_pushds cfg rfl text (by simpa using htext)]
  rfl

end Commands

/-! ## What the reads of a call return -/

theorem Rendering.length_result (w : Width) (r : Rendering) (D : Digest) :
    (r.result w D).length = r.length w := by
  cases r with
  | hex u => exact length_toHex D u
  | base64 padding => cases padding <;> exact length_toBase64 D _
  | raw => exact length_toText D w

/-- Every result string fits `OUT`. -/
theorem Rendering.length_le (w : Width) (r : Rendering) : r.length w ≤ 40 := by
  cases r with
  | hex u => exact Nat.le_refl 40
  | base64 padding => cases padding <;> simp [Rendering.length]
  | raw => cases w <;> decide

/-- The registers that `RD STATUS ; RD OUTLEN ; RD OUT0 .. RD OUT(n-1)` reads (R81). -/
def resultIndices (n : Nat) : List Nat := 0x01 :: 0x04 :: (List.range n).map (0x10 + ·)

theorem resultReads_eq_map_read (n : Nat) : resultReads n = (resultIndices n).map .read := by
  simp [resultReads, resultIndices]

theorem resultIndices_lt {n : Nat} (hn : n ≤ 40) : ∀ i ∈ resultIndices n, i < registerCount := by
  simp only [resultIndices, List.forall_mem_cons, List.forall_mem_map, List.mem_range]
  exact ⟨by decide, by decide, fun i hi => by change 0x10 + i < 64; omega⟩

/-- `ERR = 0` with a digest reads as 0x10, then come the length and the codes of the result string. -/
theorem map_readRegister_rendered (key text : Text) (D : Digest) {R : Text} (hR : R.length ≤ 40) :
    (resultIndices R.length).map (Engine.rendered key text D R).readRegister =
      0x00000010 :: BitVec.ofNat 32 R.length :: R.map (·.setWidth 32) := by
  have hcodes : ((List.range R.length).map (0x10 + ·)).map (Engine.rendered key text D R).readRegister =
      R.map (·.setWidth 32) := by
    apply List.ext_getElem (by simp)
    intro i hi _
    have hiR : i < R.length := by simpa using hi
    have hi40 : i < 40 := hiR.trans_le hR
    have hout : (Engine.rendered key text D R).out = outImage R := rfl
    simp only [List.getElem_map, List.getElem_range]
    rw [Engine.readRegister_out _ hi40, hout, toList_getD_of_lt _ hi40, outImage_getElem R i hi40,
      List.getD_eq_getElem _ _ hiR]
  rw [resultIndices, List.map_cons, List.map_cons, hcodes, Engine.readRegister_status,
    Engine.readRegister_outlen]
  rfl

/-! ## The calls -/

/-- A call whose commands leave a digest and its rendering `R` ends with both in the engine and `R` with
the host. -/
theorem run_hostCall {s : State} {p : Pseudo} {key text R : Text} {D : Digest}
    (hcommands : runCommands s.cfg s.engine (p.call key text) = Engine.rendered key text D R)
    (hlength : R.length = p.resultLength) (hR : R.length ≤ 40) :
    Sys2Proof.core.run (p.hostCall key text).length { s with pending := p.hostCall key text } =
      .next { s with
        engine := Engine.rendered key text D R
        pending := []
        replies := s.replies ++
          (0x00000010 :: BitVec.ofNat 32 p.resultLength :: R.map (·.setWidth 32)) } := by
  rw [Pseudo.hostCall, List.length_append, List.length_map, run_commandWrites, hcommands, ← hlength,
    resultReads_eq_map_read, List.length_map, ← map_readRegister_rendered key text D hR]
  exact run_reads { s with engine := Engine.rendered key text D R } _ (resultIndices_lt hR)

/-- Settles O57: CLR and the pushes load the text, SHA1 and the encoder render its digest, and the reads
return the rendering. -/
theorem sha1CallReturnsTheRendering : Obligations.Sha1CallReturnsTheRendering := by
  intro s w r text htext
  have hdigest : compress (encodeText text w) (text.length * w.bits) = sha1Text text w := rfl
  rw [hdigest]
  have hcommands : runCommands s.cfg s.engine ((Pseudo.sha1 w r).call [] text) =
      Engine.rendered [] text (sha1Text text w) (r.result w (sha1Text text w)) := by
    rw [Pseudo.call, Pseudo.expand, runCommands_append, runCommands_clr_pushds s.cfg s.engine htext,
      runCommands_digest_rendering s.cfg rfl rfl]
    rfl
  have hlength := r.length_result w (sha1Text text w)
  exact ⟨_, run_hostCall hcommands hlength (hlength.trans_le (r.length_le w)),
    rfl, rfl, rfl, rfl, rfl, rfl⟩

/-- Settles O58, as O57 with the key pushed before the text. -/
theorem hmacCallReturnsTheRendering : Obligations.HmacCallReturnsTheRendering := by
  intro s w r key text hkey htext
  have hcommands : runCommands s.cfg s.engine ((Pseudo.hmac w r).call key text) =
      Engine.rendered key text (hmacText key text w) (r.result w (hmacText key text w)) := by
    rw [Pseudo.call, Pseudo.expand, runCommands_append,
      runCommands_clr_pushks_pushds s.cfg s.engine hkey htext,
      runCommands_digest_rendering s.cfg rfl rfl]
    rfl
  have hlength := r.length_result w (hmacText key text w)
  exact ⟨_, run_hostCall hcommands hlength (hlength.trans_le (r.length_le w)),
    rfl, rfl, rfl, rfl, rfl, rfl, rfl⟩

end Sys2Proof.Machine
end

section
/-! PROOFS. Control and input (spec/40_control_input.md): `Cmd(c)` is `Step(S, c)` (O14) and always returns a
state (O12), NOP (O29), and the pushes of a character (O32, O33). -/

namespace Sys2Proof.Machine

/-! ## `Step(S, c)` and its totality (R100) -/

/-- Settles O14, by the two kinds of word: an illegal one, and a legal one with or without the lock's
test (`command_eq_stepR100`). -/
theorem commandIsStepOfR100 : Obligations.CommandIsStepOfR100 := command_eq_stepR100

/-- An access inside the register space, or a reset, is served (R50). -/
theorem exists_serve_eq_next {e : HostEvent} (he : e.wellFormed = true) (s : State) :
    ∃ t, serve e s = .next t := by
  cases e with
  | write i v =>
    have hi : i < registerCount := of_decide_eq_true he
    by_cases hcmd : i = cmdIndex
    · subst hcmd
      obtain ⟨S, hS⟩ := command_next v s
      exact ⟨_, hS⟩
    · exact ⟨s, hostWrite_of_ne_cmd hi hcmd v s⟩
  | read i => exact ⟨_, hostRead_of_lt (of_decide_eq_true he) s⟩
  | reset => exact ⟨_, rfl⟩

/-- Settles O12: a step idles (R205; log entry 2) or serves the oldest action, which is well formed. -/
theorem stepAlwaysReturnsAState : Obligations.StepAlwaysReturnsAState := by
  refine ⟨fun c s => ⟨_, command_eq_stepR100 c s⟩, fun s hwf => ?_⟩
  cases hpend : s.pending with
  | nil => exact ⟨s, by rw [step, serveNext, hpend]⟩
  | cons e rest =>
    rw [step_of_pending hpend]
    exact exists_serve_eq_next (hwf e (by rw [hpend]; rfl)) _

/-! ## NOP (R101) -/

/-- NOP does nothing, whether the lock lets it through or not. -/
theorem exec_nop (s : State) : exec .nop s = .next s := by
  by_cases h : s.engine.err = .eNone
  · rw [exec_of_good h, effect, State.withEngine_self]
  · exact exec_of_locked (by decide) h

/-- Settles O29: the all-zero word is the word of NOP. -/
theorem nopLeavesTheState : Obligations.NopLeavesTheState := by
  have hzero : decode32 0x00000000 = .ok .nop := decodeOfEncodeIsIdentity .nop
  exact fun s => ⟨exec_nop s, by rw [command_of_legal hzero, exec_nop]⟩

/-! ## PUSHD and PUSHK (R103, R104) -/

/-- Settles O32, by whether DATA is full. -/
theorem pushdAppendsOrRaisesCapacity : Obligations.PushdAppendsOrRaisesCapacity := by
  refine fun ch s => ⟨rfl, fun hgood => ?_⟩
  rw [exec_of_good hgood, effect]
  constructor
  · intro hfull
    rw [Engine.appendData_of_full ch hfull]
    rfl
  · intro hroom
    rw [Engine.appendData_of_room ch hroom]
    rfl

/-- The digest SHA1 leaves is that of DATA at its width (R140). -/
theorem exec_sha1_of_good {s : State} (h : s.engine.err = .eNone) (w : Width) :
    exec (.sha1 w) s = .next (s.withEngine (s.engine.setDigest (sha1Text s.engine.data w))) :=
  exec_of_good h _

/-- Settles O33, by whether KEY is full; SHA1 reads DATA, which a longer KEY leaves as it is. -/
theorem pushkAppendsOrRaisesCapacity : Obligations.PushkAppendsOrRaisesCapacity := by
  refine fun ch s => ⟨rfl, fun hgood => ?_⟩
  rw [exec_of_good hgood, effect]
  refine ⟨fun hfull => ?_, fun hroom => ?_, fun w t ht => ?_⟩
  · rw [Engine.appendKey_of_full ch hfull]
    rfl
  · rw [Engine.appendKey_of_room ch hroom]
    rfl
  · rw [exec_sha1_of_good hgood] at ht
    cases ht
    exact ⟨_, exec_sha1_of_good (s := s.withEngine { s.engine with key := s.engine.key ++ [ch] }) hgood w,
      rfl⟩

end Sys2Proof.Machine
end

section
/-! PROOFS. The word codec (spec/41_word_codec.md): `Encode` per width (O34), the two round trips (O35, O36),
the high bytes that 8-bit mode discards (O37) and the digest read back from TXT's result (O56). All rest on
two facts: what `Decode` reads at each place of an encoded text, and that the characters at all places fix
the words. -/

namespace Sys2Proof.Machine

/-! ## The field of a character in its word (R121) -/

/-- `Mask(ch, w)` (R120) as a character: what `Decode` gives back for `ch`. -/
def maskedChar (ch : Character) (w : Width) : Character := BitVec.ofNat 16 (ch.toNat % 2 ^ w.bits)

/-- Bit `i` of a word lies in the field of character `k`. -/
abbrev InField (w : Width) (k i : Nat) : Prop := charShift w k ≤ i ∧ i < charShift w k + w.bits

theorem bits_le_16 (w : Width) : w.bits ≤ 16 := by cases w <;> decide

theorem charShift_add_bits_le (w : Width) (k : Nat) : charShift w k + w.bits ≤ 32 := by
  cases w <;> simp only [charShift, Width.bits] <;> omega

/-- Every bit of word `j` lies in the field of one of its characters. -/
theorem exists_inField (w : Width) (j : Nat) {i : Nat} (hi : i < 32) :
    ∃ k, k * w.bits / 32 = j ∧ InField w k i := by
  cases w with
  | w8 =>
    refine ⟨4 * j + (3 - i / 8), ?_⟩
    simp only [InField, charShift, Width.bits]
    omega
  | w16 =>
    refine ⟨2 * j + (1 - i / 16), ?_⟩
    simp only [InField, charShift, Width.bits]
    omega

/-- The fields of different characters never overlap (R121). -/
theorem not_inField_of_ne {w : Width} {k l i : Nat} (hword : k * w.bits / 32 = l * w.bits / 32)
    (hne : k ≠ l) (hl : InField w l i) : ¬ InField w k i := by
  cases w <;> simp only [InField, charShift, Width.bits] at * <;> omega

/-- Two words that agree on the fields of their characters are equal. -/
theorem eq_of_fields_agree (w : Width) (j : Nat) {u v : Word}
    (h : ∀ k i, k * w.bits / 32 = j → InField w k i → u.getLsbD i = v.getLsbD i) : u = v := by
  apply BitVec.eq_of_getLsbD_eq
  intro i hi
  obtain ⟨k, hk, hfield⟩ := exists_inField w j hi
  exact h k i hk hfield

/-! ## Masked, placed and decoded characters bit by bit (R120, R121, R124) -/

theorem getLsbD_ofNat_mod_bits (w : Width) (n i : Nat) :
    (BitVec.ofNat 16 (n % 2 ^ w.bits)).getLsbD i = (decide (i < w.bits) && n.testBit i) := by
  have hle := bits_le_16 w
  rw [BitVec.getLsbD_ofNat, Nat.testBit_mod_two_pow]
  by_cases hi : i < w.bits
  · simp [hi, hi.trans_le hle]
  · simp [hi]

theorem getLsbD_maskedChar (ch : Character) (w : Width) (i : Nat) :
    (maskedChar ch w).getLsbD i = (decide (i < w.bits) && ch.getLsbD i) :=
  getLsbD_ofNat_mod_bits w ch.toNat i

theorem getLsbD_mask (ch : Character) (w : Width) (i : Nat) :
    (mask ch w).getLsbD i = (decide (i < w.bits) && ch.getLsbD i) := by
  rw [← BitVec.testBit_toNat, toNat_mask, Nat.testBit_mod_two_pow, BitVec.testBit_toNat]

/-- A placed character fills its field and no other bit. -/
theorem getLsbD_mask_shiftLeft (ch : Character) (w : Width) (k i : Nat) :
    (mask ch w <<< charShift w k).getLsbD i =
      (decide (InField w k i) && ch.getLsbD (i - charShift w k)) := by
  have hle := charShift_add_bits_le w k
  rw [BitVec.getLsbD_shiftLeft, getLsbD_mask]
  by_cases h : InField w k i
  · have hi : i < 32 := h.2.trans_le hle
    have hlow : ¬ i < charShift w k := Nat.not_lt.mpr h.1
    have hbit : i - charShift w k < w.bits := Nat.sub_lt_left_of_lt_add h.1 h.2
    simp [h, hi, hlow, hbit]
  · have hout : i < charShift w k ∨ ¬ i - charShift w k < w.bits := by omega
    rw [decide_eq_false h, Bool.false_and]
    rcases hout with hlow | hhigh
    · simp [hlow]
    · simp [hhigh]

/-- `Decode` reads character `k` off its field. -/
theorem getLsbD_decodedChar (x : List Word) (w : Width) (k i : Nat) :
    (decodedChar x w k).getLsbD i =
      (decide (i < w.bits) && (x.getD (k * w.bits / 32) 0).getLsbD (charShift w k + i)) := by
  rw [decodedChar, getLsbD_ofNat_mod_bits, BitVec.testBit_toNat, BitVec.getLsbD_ushiftRight]

/-- A bit in the field of character `k` is a bit of what `Decode` reads there. -/
theorem getLsbD_of_inField (x : List Word) {w : Width} {k i : Nat} (h : InField w k i) :
    (x.getD (k * w.bits / 32) 0).getLsbD i = (decodedChar x w k).getLsbD (i - charShift w k) := by
  obtain ⟨hlo, hhi⟩ := h
  have hbit : i - charShift w k < w.bits := by omega
  rw [getLsbD_decodedChar, decide_eq_true hbit, Bool.true_and, Nat.add_sub_cancel' hlo]

/-- A word sequence is fixed by its length and what `Decode` reads at each place. -/
theorem eq_of_decodedChar_eq {x y : List Word} {w : Width} (hlen : x.length = y.length)
    (h : ∀ k, decodedChar x w k = decodedChar y w k) : x = y := by
  apply List.ext_getElem hlen
  intro j hx hy
  rw [← List.getD_eq_getElem _ 0 hx, ← List.getD_eq_getElem _ 0 hy]
  refine eq_of_fields_agree w j ?_
  rintro k i rfl hfield
  rw [getLsbD_of_inField x hfield, getLsbD_of_inField y hfield, h k]

/-! ## Decoding what has been placed -/

/-- Placing a character leaves the other words as they are. -/
theorem getD_placeChar_of_ne (w : Width) (x : List Word) {l j : Nat} (ch : Character)
    (hj : l * w.bits / 32 ≠ j) : (placeChar w x l ch).getD j 0 = x.getD j 0 := by
  simp only [placeChar, List.getD_eq_getElem?_getD, List.getElem?_modify, if_neg hj, Option.map_eq_map,
    Option.map_id']

/-- Placing a character ORs its masked bits into its own place. -/
theorem decodedChar_placeChar_self (w : Width) {x : List Word} {k : Nat} (ch : Character)
    (hk : k * w.bits / 32 < x.length) :
    decodedChar (placeChar w x k ch) w k = decodedChar x w k ||| maskedChar ch w := by
  apply BitVec.eq_of_getLsbD_eq
  intro i _
  rw [BitVec.getLsbD_or, getLsbD_decodedChar, getLsbD_decodedChar, getLsbD_maskedChar,
    getD_placeChar _ _ _ _ hk, if_pos rfl, BitVec.getLsbD_or, getLsbD_mask_shiftLeft]
  by_cases hi : i < w.bits <;> simp [InField, hi]

/-- Placing a character leaves every other place as it is, in its own word too. -/
theorem decodedChar_placeChar_of_ne (w : Width) {x : List Word} {k l : Nat} (ch : Character)
    (hl : l * w.bits / 32 < x.length) (hne : k ≠ l) :
    decodedChar (placeChar w x l ch) w k = decodedChar x w k := by
  apply BitVec.eq_of_getLsbD_eq
  intro i _
  rw [getLsbD_decodedChar, getLsbD_decodedChar]
  by_cases hword : l * w.bits / 32 = k * w.bits / 32
  · by_cases hi : i < w.bits
    · have hfield : InField w k (charShift w k + i) := by simp [InField, hi]
      rw [getD_placeChar _ _ _ _ (hword ▸ hl), if_pos hword, BitVec.getLsbD_or, getLsbD_mask_shiftLeft,
        decide_eq_false (not_inField_of_ne hword hne.symm hfield), Bool.false_and, Bool.or_false]
    · simp [hi]
  · rw [getD_placeChar_of_ne _ _ _ hword]

theorem decodedChar_of_word_eq_zero {x : List Word} {w : Width} {k : Nat}
    (h : x.getD (k * w.bits / 32) 0 = 0) : decodedChar x w k = 0 := by
  rw [decodedChar, h]
  simp

/-- Where nothing has been placed, `Decode` reads zero. -/
theorem decodedChar_replicate_zero (n : Nat) (w : Width) (k : Nat) :
    decodedChar (List.replicate n 0) w k = 0 := by
  refine decodedChar_of_word_eq_zero ?_
  rw [List.getD_eq_getElem?_getD, List.getElem?_replicate]
  split <;> rfl

/-- The word of every character of a text is one of the words it fills (R121). -/
theorem wordIndex_lt_wordCount {k n : Nat} (w : Width) (h : k < n) : k * w.bits / 32 < wordCount n w := by
  cases w <;> simp only [wordCount, Width.bits] <;> omega

/-- After the first `n` characters are placed, `Decode` reads them masked, and zero at the places beyond. -/
theorem decodedChar_foldl_placeChar (text : Text) (w : Width) (k : Nat) {n : Nat} (hn : n ≤ text.length) :
    decodedChar ((List.range n).foldl (fun x k => placeChar w x k (text.getD k 0))
        (List.replicate (wordCount text.length w) 0)) w k =
      if k < n then maskedChar (text.getD k 0) w else 0 := by
  induction n with
  | zero => exact decodedChar_replicate_zero _ w k
  | succ n ih =>
    have hword := wordIndex_lt_wordCount w (Nat.lt_of_succ_le hn)
    rw [List.range_succ, List.foldl_append, List.foldl_cons, List.foldl_nil]
    by_cases hk : k = n
    · subst hk
      rw [decodedChar_placeChar_self _ _ (by rwa [length_foldl_placeChar, List.length_replicate]),
        ih (Nat.le_of_succ_le hn), if_neg (Nat.lt_irrefl k), if_pos (Nat.lt_succ_self k)]
      exact BitVec.zero_or
    · have hiff : k < n + 1 ↔ k < n := by omega
      rw [decodedChar_placeChar_of_ne _ _ (by rwa [length_foldl_placeChar, List.length_replicate]) hk,
        ih (Nat.le_of_succ_le hn)]
      simp only [hiff]

@[simp] theorem maskedChar_zero (w : Width) : maskedChar 0 w = 0 := by simp [maskedChar]

/-- What `Decode` reads of an encoded text: at every place its masked character, zero beyond its end. -/
theorem decodedChar_encodeText (text : Text) (w : Width) (k : Nat) :
    decodedChar (encodeText text w) w k = maskedChar (text.getD k 0) w := by
  rw [encodeText, decodedChar_foldl_placeChar text w k (Nat.le_refl _)]
  by_cases hk : k < text.length
  · rw [if_pos hk]
  · rw [if_neg hk, List.getD_eq_default _ _ (by omega), maskedChar_zero]

/-! ## Encoding what has been decoded (R126, item (1)) -/

theorem maskedChar_of_toNat_lt {ch : Character} {w : Width} (h : ch.toNat < 2 ^ w.bits) :
    maskedChar ch w = ch := by
  rw [maskedChar, Nat.mod_eq_of_lt h, BitVec.ofNat_toNat, BitVec.setWidth_eq]

/-- The decoded text holds what `Decode` reads at each place, the places beyond the words too. -/
theorem getD_decodeWords (x : List Word) (w : Width) (k : Nat) :
    (decodeWords x w).getD k 0 = decodedChar x w k := by
  by_cases hk : k < (decodeWords x w).length
  · rw [List.getD_eq_getElem _ _ hk, decodeWords_getElem]
  · have hword : x.length ≤ k * w.bits / 32 := by
      rw [length_decodeWords] at hk
      cases w <;> simp only [Width.bits] at * <;> omega
    rw [List.getD_eq_default _ _ (by omega), decodedChar_of_word_eq_zero (List.getD_eq_default _ _ hword)]

/-- The characters of `m` words fill `m` words. -/
theorem wordCount_of_words (m : Nat) (w : Width) : wordCount (m * 32 / w.bits) w = m := by
  cases w <;> simp only [wordCount, Width.bits] <;> omega

/-- Settles O35: both sequences have the same length, and `Decode` reads the same character of both at
every place, since a decoded character is already masked. -/
theorem encodeOfDecodeWords : Obligations.EncodeOfDecodeWords := by
  intro x w
  refine eq_of_decodedChar_eq (w := w) ?_ fun k => ?_
  · rw [length_encodeText, length_decodeWords, wordCount_of_words]
  · rw [decodedChar_encodeText, getD_decodeWords, maskedChar_of_toNat_lt (toNat_decodedChar_lt x w k)]

/-! ## Decoding an encoded text (R126, item (2)) -/

/-- The words a text fills have room for its characters and the zero characters up to a whole word. -/
theorem wordCount_places (n : Nat) (w : Width) :
    wordCount n w * 32 / w.bits = n + (32 / w.bits - n % (32 / w.bits)) % (32 / w.bits) := by
  cases w <;> simp only [wordCount, Width.bits] <;> omega

/-- Settles O36, place by place: within the text, and in the zero characters after it. -/
theorem decodeOfEncodeText : Obligations.DecodeOfEncodeText := by
  intro text w
  change _ = text.map (maskedChar · w) ++ _
  apply List.ext_getElem
  · rw [length_decodeWords, length_encodeText, wordCount_places, List.length_append, List.length_map,
      List.length_replicate]
  · intro k hk _
    rw [decodeWords_getElem, decodedChar_encodeText, List.getElem_append]
    split
    · rw [List.getElem_map, List.getD_eq_getElem]
    next htext =>
      rw [List.getElem_replicate, List.getD_eq_default _ _ (by simpa using htext), maskedChar_zero]

/-! ## `Encode` per width (R122) -/

/-- Character `k` of a text, masked and shifted into its field of the word (R121). -/
def placedChar (text : Text) (w : Width) (k : Nat) : Word := mask (text.getD k 0) w <<< charShift w k

/-- In the field of character `k` an encoded text holds the placed character. -/
theorem getLsbD_encodeText (text : Text) {w : Width} {k i : Nat} (h : InField w k i) :
    ((encodeText text w).getD (k * w.bits / 32) 0).getLsbD i = (placedChar text w k).getLsbD i := by
  have hbit : i - charShift w k < w.bits := by
    obtain ⟨_, _⟩ := h
    omega
  rw [getLsbD_of_inField _ h, decodedChar_encodeText, getLsbD_maskedChar, decide_eq_true hbit, placedChar,
    getLsbD_mask_shiftLeft, decide_eq_true h]

/-- In the field of character `k` every other placed character of the word is zero. -/
theorem getLsbD_placedChar_of_ne (text : Text) {w : Width} {k l i : Nat} (h : InField w k i)
    (hword : l * w.bits / 32 = k * w.bits / 32) (hne : l ≠ k) :
    (placedChar text w l).getLsbD i = false := by
  rw [placedChar, getLsbD_mask_shiftLeft, decide_eq_false (not_inField_of_ne hword hne h), Bool.false_and]

/-- `m(k) << s` of R122 at 8 bits is the placed character, where `s` is its shift. -/
theorem lowByte_shiftLeft (text : Text) {k s : Nat} (hs : charShift .w8 k = s) :
    lowByte text k <<< s = placedChar text .w8 k := hs ▸ rfl

/-- `m(k) << s` of R122 at 16 bits is the placed character, where `s` is its shift. -/
theorem wholeChar_shiftLeft (text : Text) {k s : Nat} (hs : charShift .w16 k = s) :
    wholeChar text k <<< s = placedChar text .w16 k := by
  have hmask : wholeChar text k = mask (text.getD k 0) .w16 := by
    apply BitVec.eq_of_toNat_eq
    rw [toNat_mask, wholeChar, BitVec.toNat_setWidth]
    simp only [Width.bits]
    omega
  rw [placedChar, hmask, hs]

/-- `32/w` characters fill a word: character `k` falls into word `k div (32/w)` (R121). -/
theorem wordIndex_eq_div (w : Width) (k : Nat) : k * w.bits / 32 = k / (32 / w.bits) := by
  cases w <;> simp only [Width.bits] <;> omega

/-- A bit of words OR-ed together is set when it is set in one of them. -/
theorem getLsbD_foldl_or (f : Nat → Word) (qs : List Nat) (acc : Word) (i : Nat) :
    (qs.foldl (fun acc q => acc ||| f q) acc).getLsbD i =
      (acc.getLsbD i || qs.any fun q => (f q).getLsbD i) := by
  induction qs generalizing acc with
  | nil => simp
  | cons q qs ih => rw [List.foldl_cons, ih, BitVec.getLsbD_or, List.any_cons, Bool.or_assoc]

/-- Word `j` of an encoded text is made of the `32/w` placed characters that fall into it (R121). -/
theorem getD_encodeText (text : Text) (w : Width) (j : Nat) :
    (encodeText text w).getD j 0 =
      (List.range (32 / w.bits)).foldl
        (fun acc q => acc ||| placedChar text w (32 / w.bits * j + q)) 0#32 := by
  have hpos : 0 < 32 / w.bits := by cases w <;> decide
  refine eq_of_fields_agree w j ?_
  rintro k i rfl hfield
  rw [getLsbD_encodeText text hfield, getLsbD_foldl_or, BitVec.getLsbD_zero, Bool.false_or,
    Bool.eq_iff_iff, List.any_eq_true, wordIndex_eq_div]
  constructor
  · intro hbit
    refine ⟨k % (32 / w.bits), List.mem_range.mpr (Nat.mod_lt _ hpos), ?_⟩
    rwa [Nat.div_add_mod]
  · rintro ⟨q, hq, hbit⟩
    by_cases heq : 32 / w.bits * (k / (32 / w.bits)) + q = k
    · rwa [heq] at hbit
    · have hword : (32 / w.bits * (k / (32 / w.bits)) + q) * w.bits / 32 = k * w.bits / 32 := by
        rw [wordIndex_eq_div, wordIndex_eq_div, Nat.mul_add_div hpos,
          Nat.div_eq_of_lt (List.mem_range.mp hq), Nat.add_zero]
      exact absurd hbit (by simp [getLsbD_placedChar_of_ne text hfield hword heq])

/-- Settles O34, word by word: each character is placed by its shift, 24, 16, 8, 0 or 16, 0. -/
theorem encodePerWidth : Obligations.EncodePerWidth := by
  intro text
  refine ⟨?_, fun j => ?_, ?_, fun j => ?_⟩
  · rw [length_encodeText]
    simp only [wordCount, Width.bits]
    omega
  · have hword : (encodeText text .w8).getD j 0 =
        0#32 ||| placedChar text .w8 (4 * j) ||| placedChar text .w8 (4 * j + 1) |||
          placedChar text .w8 (4 * j + 2) ||| placedChar text .w8 (4 * j + 3) := getD_encodeText text .w8 j
    rw [hword, BitVec.zero_or, ← BitVec.shiftLeft_zero (lowByte text (4 * j + 3)), lowByte_shiftLeft,
      lowByte_shiftLeft, lowByte_shiftLeft, lowByte_shiftLeft]
    all_goals simp only [charShift, Width.bits]; omega
  · rw [length_encodeText]
    simp only [wordCount, Width.bits]
    omega
  · have hword : (encodeText text .w16).getD j 0 =
        0#32 ||| placedChar text .w16 (2 * j) ||| placedChar text .w16 (2 * j + 1) :=
      getD_encodeText text .w16 j
    rw [hword, BitVec.zero_or, ← BitVec.shiftLeft_zero (wholeChar text (2 * j + 1)), wholeChar_shiftLeft,
      wholeChar_shiftLeft]
    all_goals simp only [charShift, Width.bits]; omega

/-! ## The high bytes at 8 bits (R126, item (4)) -/

/-- `Encode` depends on the masked characters only. -/
theorem encodeText_congr {text text' : Text} {w : Width}
    (h : text.map (maskedChar · w) = text'.map (maskedChar · w)) :
    encodeText text w = encodeText text' w := by
  have hlen : text.length = text'.length := by simpa using congrArg List.length h
  have hmasked : ∀ t : Text, ∀ k, maskedChar (t.getD k 0) w = (t.map (maskedChar · w)).getD k 0 := by
    intro t k
    rw [← maskedChar_zero w, List.getD_map (f := (maskedChar · w)), maskedChar_zero]
  refine eq_of_decodedChar_eq (w := w) (by rw [length_encodeText, length_encodeText, hlen]) fun k => ?_
  rw [decodedChar_encodeText, decodedChar_encodeText, hmasked text, h, hmasked text']

/-- Settles O37: the encoded texts and the bit lengths are the same. -/
theorem highBytesDoNotMatterAt8 : Obligations.HighBytesDoNotMatterAt8 := by
  intro text text' h
  have hmasked : text.map (maskedChar · .w8) = text'.map (maskedChar · .w8) := by
    have hcodes := congrArg (List.map (BitVec.ofNat 16)) h
    rw [List.map_map, List.map_map] at hcodes
    exact hcodes
  have hlen : text.length = text'.length := by simpa using congrArg List.length h
  rw [sha1Text, sha1Text, encodeText_congr hmasked, bitLen, bitLen, hlen]

/-! ## TXT and back (95_test_vectors.md X7) -/

/-- Up to its length, `OUT` holds the result string (R178). -/
theorem take_outImage {r : Text} (h : r.length ≤ 40) : (outImage r).toList.take r.length = r := by
  rw [outImage_toList]
  apply List.ext_getElem (by simpa using h)
  intro i _ hi
  rw [List.getElem_take, List.getElem_map, List.getElem_range, List.getD_eq_getElem _ _ hi]

/-- Settles O56: TXT leaves the decoded digest in `OUT`, and O35 encodes it back. -/
theorem reencodingTxtGivesTheDigest : Obligations.ReencodingTxtGivesTheDigest := by
  intro w s hgood hv
  refine ⟨_, exec_of_good hgood (.txt w), ?_⟩
  have hfits : (toText s.engine.dg w).length ≤ 40 := by
    rw [length_toText]
    cases w <;> decide
  rw [State.withEngine_engine, effect, Engine.emit_of_valid _ hv, take_outImage hfits]
  exact encodeOfDecodeWords s.engine.dg.words w

end Sys2Proof.Machine
end

section
/-! PROOFS. The compressor (spec/42_sha1_compressor.md): the padded message word by word (O39) and its number
of blocks (O40), the schedule (O41), the nonlinear function (O42), one round (O43), the eighty rounds of a
block (O59), the blocks of a message (O60) and the SHA1 command (O45). The schedule and the two folds are
given by what they hold after each step: `newestFirst`, `Digest.workingAfter` and `chainAfter`. -/

namespace Sys2Proof.Machine

/-! ## The number of blocks (R132) -/

/-- `n` blocks are enough exactly when they hold the message, the terminator bit and 64 length bits. -/
theorem blockCount_le_iff {L n : Nat} : blockCount L ≤ n ↔ L + 65 ≤ 512 * n := by
  rw [blockCount]
  omega

theorem bits_add_le_blockCount (L : Nat) : L + 65 ≤ 512 * blockCount L := blockCount_le_iff.mp le_rfl

/-- A count of `n + 1` blocks means that `n` blocks are too few and `n + 1` are enough. -/
theorem blockCount_eq_succ_iff {L n : Nat} :
    blockCount L = n + 1 ↔ 512 * n < L + 65 ∧ L + 65 ≤ 512 * (n + 1) := by
  rw [← blockCount_le_iff, ← not_le, ← blockCount_le_iff, not_le]
  omega

/-- With at most 447 bits in the last block, the terminator and the length fit behind them. -/
theorem blockCount_of_fits {L : Nat} (h : L % 512 ≤ 447) : blockCount L = L / 512 + 1 :=
  blockCount_eq_succ_iff.mpr (by omega)

/-- With 448 bits or more in the last block, one further block is added. -/
theorem blockCount_of_overflows {L : Nat} (h : 448 ≤ L % 512) : blockCount L = L / 512 + 2 :=
  blockCount_eq_succ_iff.mpr (by omega)

/-! ## The padded message (R131) -/

/-- The terminator bit never lands in the two length words. -/
theorem terminator_before_length (L : Nat) : L / 32 ≤ 16 * blockCount L - 3 := by
  have := bits_add_le_blockCount L
  omega

/-- The message words never reach the two length words. -/
theorem message_before_length (L : Nat) : (L + 31) / 32 ≤ 16 * blockCount L - 2 := by
  have := bits_add_le_blockCount L
  omega

/-- In front of the two length words stand the message and the terminator bit. -/
theorem getD_pad (x : List Word) {L i : Nat} (hi : i < 16 * blockCount L - 2) :
    (pad x L).getD i 0 = x.getD i 0 ||| (if i = L / 32 then 0x80000000 >>> (L % 32) else 0) := by
  have hlast : 16 * blockCount L - 1 ≠ i := by omega
  have hupper : 16 * blockCount L - 2 ≠ i := by omega
  have hcopied : ((List.range (16 * blockCount L)).map fun k => x.getD k 0)[i]? = some (x.getD i 0) := by
    rw [List.getElem?_map, List.getElem?_range (by omega), Option.map_some]
  rw [List.getD_eq_getElem?_getD, pad, List.getElem?_set_ne hlast, List.getElem?_set_ne hupper,
    List.getElem?_modify, hcopied]
  by_cases hterm : i = L / 32
  · simp [hterm]
  · simp [hterm, Ne.symm hterm]

/-- The upper length word is zero (R142). -/
theorem getD_pad_upperLength (x : List Word) (L : Nat) :
    (pad x L).getD (16 * blockCount L - 2) 0 = 0 := by
  have hpos := blockCount_pos L
  have hlast : 16 * blockCount L - 1 ≠ 16 * blockCount L - 2 := by omega
  rw [List.getD_eq_getElem?_getD, pad, List.getElem?_set_ne hlast, List.getElem?_set_self (by simp; omega),
    Option.getD_some]

/-- The last word is the length (R142). -/
theorem getD_pad_lowerLength (x : List Word) (L : Nat) :
    (pad x L).getD (16 * blockCount L - 1) 0 = BitVec.ofNat 32 L := by
  have hpos := blockCount_pos L
  rw [List.getD_eq_getElem?_getD, pad, List.getElem?_set_self (by simp; omega), Option.getD_some]

/-- Settles O39, by the words in front of the length words, the two length words and the two bounds. -/
theorem padLayout : Obligations.PadLayout := by
  intro x L hL hx
  refine ⟨length_pad x L, fun i hi => getD_pad x hi, getD_pad_upperLength x L, ?_,
    terminator_before_length L, hx ▸ message_before_length L⟩
  have hlength : ((pad x L).getD (16 * blockCount L - 1) 0).toNat = L := by
    rw [getD_pad_lowerLength, BitVec.toNat_ofNat, Nat.mod_eq_of_lt hL]
  exact hlength

/-- Between the terminator and the two length words the padding is zero. -/
theorem getD_pad_zeroFill {x : List Word} {L i : Nat} (hx : x.length ≤ i) (hterm : L / 32 < i)
    (hi : i < 16 * blockCount L - 2) : (pad x L).getD i 0 = 0 := by
  rw [getD_pad x hi, List.getD_eq_default _ _ hx, if_neg (by omega), Nat.cast_zero]
  exact BitVec.or_self

/-- Settles O40: the count by its formula, and a further block's words lie behind the terminator. -/
theorem blockCountBoundaries : Obligations.BlockCountBoundaries := by
  refine ⟨fun L => ⟨bits_add_le_blockCount L, fun _ => blockCount_le_iff.mpr, blockCount_of_fits,
    blockCount_of_overflows⟩, fun x L _ hx hover i hi => ?_, fun text => ?_⟩
  · have hcount := blockCount_of_overflows hover
    apply getD_pad_zeroFill <;> omega
  · simp only [bitLen, Width.bits, blockCount_eq_succ_iff]
    omega

/-! ## The schedule (R134) -/

/-- The schedule after `n` words have been computed, newest first. -/
def newestFirst (b : List Word) (n : Nat) : List Word :=
  (List.range n).foldl (fun w _ => extendSchedule w) b.reverse

theorem schedule_eq_reverse (b : List Word) : schedule b = (newestFirst b 64).reverse := rfl

theorem newestFirst_succ (b : List Word) (n : Nat) :
    newestFirst b (n + 1) = extendSchedule (newestFirst b n) := by
  rw [newestFirst, List.range_succ, List.foldl_append, ← newestFirst, List.foldl_cons, List.foldl_nil]

@[simp] theorem length_newestFirst (b : List Word) (n : Nat) : (newestFirst b n).length = b.length + n := by
  rw [newestFirst, length_foldl_extendSchedule, List.length_reverse, List.length_range]

/-- Words computed later leave the earlier ones in place. -/
theorem newestFirst_suffix (b : List Word) {m n : Nat} (h : m ≤ n) :
    newestFirst b m <:+ newestFirst b n := by
  induction n, h using Nat.le_induction with
  | base => exact List.suffix_rfl
  | succ n _ ih =>
    rw [newestFirst_succ]
    exact ih.trans (List.suffix_cons _ _)

/-- Counted from the newest of `n` computed words, word `k` is word `len(B) + n - 1 - k` of the schedule. -/
theorem getD_newestFirst (b : List Word) {n k : Nat} (hn : n ≤ 64) (hk : k < b.length + n) :
    (newestFirst b n).getD k 0 = (schedule b).getD (b.length + n - 1 - k) 0 := by
  have hprefix : (newestFirst b n).reverse <+: schedule b :=
    List.reverse_prefix.mpr (newestFirst_suffix b hn)
  have hword : b.length + n - 1 - k < (newestFirst b n).length := by
    rw [length_newestFirst]
    omega
  have hcount : (newestFirst b n).length - 1 - (b.length + n - 1 - k) = k := by
    rw [length_newestFirst]
    omega
  obtain ⟨later, hlater⟩ := hprefix
  rw [← hlater, List.getD_append _ _ _ _ (by rwa [List.length_reverse]), List.getD_reverse _ hword, hcount]

/-- The block stands in front of its schedule. -/
theorem prefix_schedule (b : List Word) : b <+: schedule b := by
  have hsuffix : b.reverse <:+ newestFirst b 64 := newestFirst_suffix b (Nat.zero_le 64)
  rwa [← List.reverse_prefix, List.reverse_reverse] at hsuffix

/-- Settles O41: word `16 + n` is the one put in front of the `n` words computed before it. -/
theorem scheduleRecurrence : Obligations.ScheduleRecurrence := by
  intro b hb
  refine ⟨by rw [length_schedule, hb], fun j hj => ?_, fun j hlo hhi => ?_⟩
  · obtain ⟨later, hlater⟩ := prefix_schedule b
    rw [← hlater, List.getD_append _ _ _ _ (hb ▸ hj)]
  · obtain ⟨n, rfl⟩ := Nat.exists_eq_add_of_le hlo
    have hword (k : Nat) (hk : k < 16) :
        (newestFirst b n).getD k 0 = (schedule b).getD (16 + n - (k + 1)) 0 := by
      rw [getD_newestFirst b (by omega) (by omega), hb, Nat.sub_sub, Nat.add_comm 1 k]
    have hnew : (extendSchedule (newestFirst b n)).getD 0 0 = (schedule b).getD (16 + n) 0 := by
      rw [← newestFirst_succ, getD_newestFirst b (by omega) (by omega), hb, Nat.sub_zero, ← Nat.add_assoc,
        Nat.add_sub_cancel]
    rw [← hnew, extendSchedule, List.getD_cons_zero, hword 2 (by decide), hword 7 (by decide),
      hword 13 (by decide), hword 15 (by decide)]

/-! ## The round (R135 to R137) -/

theorem roundFunction_of_choice {t : Nat} (b c d : Word) (h : t < 20) :
    roundFunction t b c d = ((b &&& c) ||| (~~~b &&& d)) := if_pos h

theorem roundFunction_of_majority {t : Nat} (b c d : Word) (hlo : 40 ≤ t) (hhi : t < 60) :
    roundFunction t b c d = ((b &&& c) ||| (b &&& d) ||| (c &&& d)) := by
  rw [roundFunction, if_neg (by omega), if_neg (by omega), if_pos hhi]

theorem roundFunction_of_parity {t : Nat} (b c d : Word) (h : 20 ≤ t ∧ t < 40 ∨ 60 ≤ t) :
    roundFunction t b c d = b ^^^ c ^^^ d := by
  rw [roundFunction, if_neg (by omega)]
  obtain ⟨_, hhi⟩ | hlo := h
  · rw [if_pos hhi]
  · rw [if_neg (by omega), if_neg (by omega)]

/-- The first row of R135 chooses `c` where `b` is 1 and `d` where `b` is 0. -/
theorem getLsbD_choice (b c d : Word) {i : Nat} (hi : i < 32) :
    ((b &&& c) ||| (~~~b &&& d)).getLsbD i = if b.getLsbD i then c.getLsbD i else d.getLsbD i := by
  rw [BitVec.getLsbD_or, BitVec.getLsbD_and, BitVec.getLsbD_and, BitVec.getLsbD_not, decide_eq_true hi]
  cases b.getLsbD i <;> simp

/-- The third row of R135 is the majority of the three bits. -/
theorem getLsbD_majority (b c d : Word) (i : Nat) :
    ((b &&& c) ||| (b &&& d) ||| (c &&& d)).getLsbD i =
      decide (2 ≤ (b.getLsbD i).toNat + (c.getLsbD i).toNat + (d.getLsbD i).toNat) := by
  simp only [BitVec.getLsbD_or, BitVec.getLsbD_and]
  generalize b.getLsbD i = p, c.getLsbD i = q, d.getLsbD i = r
  revert p q r
  decide

/-- The second and fourth rows of R135 are the parity of the three bits. -/
theorem getLsbD_parity (b c d : Word) (i : Nat) :
    (b ^^^ c ^^^ d).getLsbD i =
      decide (((b.getLsbD i).toNat + (c.getLsbD i).toNat + (d.getLsbD i).toNat) % 2 = 1) := by
  simp only [BitVec.getLsbD_xor]
  generalize b.getLsbD i = p, c.getLsbD i = q, d.getLsbD i = r
  revert p q r
  decide

/-- Settles O42, row by row of R135. -/
theorem roundFunctionBitByBit : Obligations.RoundFunctionBitByBit := by
  intro t b c d _
  refine ⟨fun h => ?_, fun ⟨hlo, hhi⟩ => ?_, fun h => ?_⟩
  · rw [roundFunction_of_choice b c d (by omega)]
    exact ⟨rfl, fun i hi => getLsbD_choice b c d hi⟩
  · rw [roundFunction_of_majority b c d hlo (by omega)]
    exact ⟨rfl, fun i _ => getLsbD_majority b c d i⟩
  · rw [roundFunction_of_parity b c d (by omega)]
    exact ⟨rfl, fun i _ => getLsbD_parity b c d i⟩

/-- The constants of R136 as numbers. -/
theorem toNat_roundConstant (t : Nat) :
    (roundConstant t).toNat = if t ≤ 19 then 0x5A827999 else if t ≤ 39 then 0x6ED9EBA1
      else if t ≤ 59 then 0x8F1BBCDC else 0xCA62C1D6 := by
  simp only [roundConstant, Nat.lt_succ_iff, apply_ite BitVec.toNat]
  rfl

theorem toNat_add32 (x y : Word) : (add32 x y).toNat = (x.toNat + y.toNat) % 2 ^ 32 := BitVec.toNat_add x y

/-- The sum of R137 is taken modulo `2^32` once. -/
theorem toNat_roundSum (t : Nat) (r : Working) (w : Word) :
    (roundSum t r w).toNat =
      ((rotl32 r.a 5).toNat + (roundFunction t r.b r.c r.d).toNat + r.e.toNat + w.toNat +
        (roundConstant t).toNat) % 2 ^ 32 := by
  simp only [roundSum, toNat_add32, Nat.mod_add_mod]

/-- Settles O43, by the sum of R137 and the constants of R136. -/
theorem roundStep : Obligations.RoundStep :=
  fun t r w _ => ⟨toNat_roundConstant t ▸ toNat_roundSum t r w, rfl, rfl, rfl, rfl⟩

/-! ## The block (R138) -/

/-- The working registers after the first `t` rounds over the schedule of `b`, seeded from `h`. -/
def Digest.workingAfter (h : Digest) (b : List Word) (t : Nat) : Working :=
  (List.range t).foldl (fun r t => sha1Round t r ((schedule b).getD t 0)) ⟨h.h0, h.h1, h.h2, h.h3, h.h4⟩

theorem Digest.workingAfter_zero (h : Digest) (b : List Word) :
    h.workingAfter b 0 = ⟨h.h0, h.h1, h.h2, h.h3, h.h4⟩ := rfl

theorem Digest.workingAfter_succ (h : Digest) (b : List Word) (t : Nat) :
    h.workingAfter b (t + 1) = sha1Round t (h.workingAfter b t) ((schedule b).getD t 0) :=
  foldl_rounds_succ (schedule b) _ t

theorem block_eq (h : Digest) (b : List Word) :
    block h b =
      ⟨add32 h.h0 (h.workingAfter b 80).a, add32 h.h1 (h.workingAfter b 80).b,
        add32 h.h2 (h.workingAfter b 80).c, add32 h.h3 (h.workingAfter b 80).d,
        add32 h.h4 (h.workingAfter b 80).e⟩ := rfl

/-- Settles O59, with the registers `Digest.workingAfter`. -/
theorem blockRunsEightyRounds : Obligations.BlockRunsEightyRounds := by
  intro h b _
  refine ⟨h.workingAfter b, h.workingAfter_zero b, fun t _ => h.workingAfter_succ b t, ?_⟩
  rw [block_eq]
  exact ⟨toNat_add32 _ _, toNat_add32 _ _, toNat_add32 _ _, toNat_add32 _ _, toNat_add32 _ _⟩

/-! ## The whole function and the command (R139, R140) -/

/-- The chaining value after the first `n` blocks of the padded message `p`. -/
def chainAfter (p : List Word) (n : Nat) : Digest :=
  (List.range n).foldl (fun h blk => block h (blockAt p blk)) initialValue

theorem chainAfter_zero (p : List Word) : chainAfter p 0 = initialValue := rfl

theorem chainAfter_succ (p : List Word) (n : Nat) :
    chainAfter p (n + 1) = block (chainAfter p n) (blockAt p n) := foldl_blocks_succ p initialValue n

theorem compress_eq_chainAfter (x : List Word) (L : Nat) :
    compress x L = chainAfter (pad x L) (blockCount L) := rfl

/-- Settles O60, with the chaining values `chainAfter`. -/
theorem compressRunsEveryBlock : Obligations.CompressRunsEveryBlock := by
  intro x L _ _
  refine ⟨length_pad x L, chainAfter (pad x L), chainAfter_zero _, fun blk hblk => ?_,
    compress_eq_chainAfter x L, congrArg Digest.words (compress_eq_chainAfter x L)⟩
  have hwhole : 16 * (blk + 1) ≤ (pad x L).length := by
    have hcount : blk < blockCount L := hblk
    rw [length_pad]
    omega
  rw [chainAfter_succ, blockAt_eq_map hwhole]

/-- Settles O45, by the effect of SHA1 on an engine that is not locked. -/
theorem sha1WritesTheDigest : Obligations.Sha1WritesTheDigest :=
  fun w _ hgood => exec_sha1_of_good hgood w

end Sys2Proof.Machine
end

section
/-! PROOFS. The HMAC wrapper (spec/43_hmac.md): which keys are hashed (O46), the key block (O47), the two
passes block by block (O48) and the HMAC command (O49). The passes rest on what the padding leaves of a
message that begins with a whole block, and of one that consists of whole words. -/

namespace Sys2Proof.Machine

/-! ## The key words (R160 to R162) -/

/-- The key fills more than 16 words exactly when it has more than 512 bits. -/
theorem length_encodeText_gt_iff (text : Text) (w : Width) :
    (encodeText text w).length > 16 ↔ 512 < text.length * w.bits := by
  rw [length_encodeText, wordCount]
  omega

theorem keyWords_of_long {key : Text} {w : Width} (h : (encodeText key w).length > 16) :
    keyWords key w = (compress (encodeText key w) (key.length * w.bits)).words := if_pos h

theorem keyWords_of_short {key : Text} {w : Width} (h : (encodeText key w).length ≤ 16) :
    keyWords key w = encodeText key w := if_neg (Nat.not_lt.mpr h)

/-- A key that is the text of a digest has the digest's own words: `Encode` undoes `ToText`, and five words
are not hashed. -/
theorem keyWords_toText (d : Digest) (w : Width) : keyWords (toText d w) w = d.words := by
  have hwords : encodeText (toText d w) w = d.words := encodeOfDecodeWords d.words w
  have hshort : (encodeText (toText d w) w).length ≤ 16 := by
    rw [hwords, length_words]
    decide
  rw [keyWords_of_short hshort, hwords]

/-- HMAC reads the key through its key words only. -/
theorem hmacText_congr_keyWords {key key' : Text} {w : Width} (h : keyWords key w = keyWords key' w)
    (data : Text) : hmacText key data w = hmacText key' data w := by
  rw [hmacText, hmacText, h]

/-- Settles O46: a long key and the text of its digest have the same key words. -/
theorem longKeyIsItsDigest : Obligations.LongKeyIsItsDigest := by
  intro key data
  refine ⟨?_, ?_, fun w hlong => hmacText_congr_keyWords ?_ data⟩
  · rw [length_encodeText_gt_iff, Width.bits]
    omega
  · rw [length_encodeText_gt_iff, Width.bits]
    omega
  · rw [keyWords_of_long ((length_encodeText_gt_iff key w).mpr hlong), keyWords_toText]

/-! ## The key block and the pad blocks (R163, R164) -/

theorem length_keyWords_le (key : Text) (w : Width) : (keyWords key w).length ≤ 16 := by
  obtain hshort | hlong := le_or_gt (encodeText key w).length 16
  · rwa [keyWords_of_short hshort]
  · rw [keyWords_of_long hlong, length_words]
    decide

@[simp] theorem length_keyBlock (kw : List Word) : (keyBlock kw).length = 16 := by simp [keyBlock]
@[simp] theorem length_ipad (k16 : List Word) : (ipad k16).length = k16.length := List.length_map _
@[simp] theorem length_opad (k16 : List Word) : (opad k16).length = k16.length := List.length_map _

/-- Copying a short word sequence into `n` words zero-extends it (R131, R163). -/
theorem map_getD_range_eq_append {x : List Word} {n : Nat} (h : x.length ≤ n) :
    (List.range n).map (fun i => x.getD i 0) = x ++ List.replicate (n - x.length) 0 := by
  apply List.ext_getElem
  · rw [List.length_map, List.length_range, List.length_append, List.length_replicate,
      Nat.add_sub_cancel' h]
  · intro i _ _
    simp only [List.getElem_map, List.getElem_range, List.getElem_append]
    split
    next hinside => exact List.getD_eq_getElem _ 0 hinside
    next hbeyond => rw [List.getElem_replicate, List.getD_eq_default _ _ (Nat.le_of_not_lt hbeyond)]

/-- Settles O47, by the number of the key words. -/
theorem keyBlockIsZeroExtendedKey : Obligations.KeyBlockIsZeroExtendedKey := fun key w =>
  ⟨length_keyWords_le key w, map_getD_range_eq_append (length_keyWords_le key w), length_keyBlock _⟩

theorem ipad_keyBlock (kw : List Word) :
    ipad (keyBlock kw) = (List.range 16).map fun i => kw.getD i 0 ^^^ 0x36363636 := List.map_map

theorem opad_keyBlock (kw : List Word) :
    opad (keyBlock kw) = (List.range 16).map fun i => kw.getD i 0 ^^^ 0x5C5C5C5C := List.map_map

/-! ## A message that begins with a whole block (R169) -/

/-- The padding leaves a whole first block of the message as it is. -/
theorem blockAt_pad_append_zero {b : List Word} (hb : b.length = 16) (x : List Word) {L : Nat}
    (hL : 512 ≤ L) : blockAt (pad (b ++ x) L) 0 = b := by
  have hroom := bits_add_le_blockCount L
  rw [blockAt_eq_map (by rw [length_pad]; omega)]
  apply List.ext_getElem
  · rw [List.length_map, List.length_range, hb]
  · intro j _ hj
    have hterm : ¬ 16 * 0 + j = L / 32 := by omega
    rw [List.getElem_map, List.getElem_range, getD_pad _ (by omega), if_neg hterm, Nat.mul_zero,
      Nat.zero_add, List.getD_append _ _ _ _ hj, List.getD_eq_getElem _ _ hj]
    exact BitVec.or_zero

/-- The chaining value starts from the first block and takes in the others in order. -/
theorem chainAfter_eq_foldl_range' (p : List Word) {n : Nat} (hn : 0 < n) :
    chainAfter p n =
      (List.range' 1 (n - 1)).foldl (fun h blk => block h (blockAt p blk))
        (block initialValue (blockAt p 0)) := by
  obtain ⟨m, rfl⟩ := Nat.exists_eq_succ_of_ne_zero hn.ne'
  rw [chainAfter, List.range_eq_range', List.range'_succ, List.foldl_cons, Nat.succ_sub_one]

theorem compress_append {b : List Word} (hb : b.length = 16) (x : List Word) {L : Nat} (hL : 512 ≤ L) :
    compress (b ++ x) L =
      (List.range' 1 (blockCount L - 1)).foldl (fun h blk => block h (blockAt (pad (b ++ x) L) blk))
        (block initialValue b) := by
  rw [compress_eq_chainAfter, chainAfter_eq_foldl_range' _ (blockCount_pos L),
    blockAt_pad_append_zero hb x hL]

/-! ## The outer pass (R166, R169) -/

/-- A message of 21 whole words fills two blocks: after it come the terminator, nine zero words and its length
of 672 bits. -/
theorem pad_672_eq_append {x : List Word} (hx : x.length = 21) :
    pad x 672 = x ++ [0x80000000, 0, 0, 0, 0, 0, 0, 0, 0, 0, 0x000002A0] := by
  have hpad : pad x 672 = ((((List.range 32).map fun i => x.getD i 0).modify 21
      (· ||| (0x80000000 >>> 0))).set 30 0).set 31 672 := rfl
  have hcopied : (List.range 32).map (fun i => x.getD i 0) = x ++ List.replicate 11 0 := by
    rw [map_getD_range_eq_append (by omega), hx]
  have hterm : (x ++ List.replicate 11 (0 : Word)).modify 21 (· ||| (0x80000000 >>> 0)) =
      x ++ (List.replicate 11 (0 : Word)).modify 0 (· ||| (0x80000000 >>> 0)) := by
    rw [← hx]
    exact List.modifyTailIdx_add _ 0 x _
  rw [hpad, hcopied, hterm, List.set_append_right _ _ (by omega), List.set_append_right _ _ (by omega), hx]
  rfl

/-- Settles O48: both messages begin with a whole block, and the outer one has one block more. -/
theorem hmacThroughBlocks : Obligations.HmacThroughBlocks := by
  intro key data w k16 L p
  have hipad : (ipad k16).length = 16 := by rw [length_ipad, length_keyBlock]
  have hopad : (opad k16).length = 16 := by rw [length_opad, length_keyBlock]
  have hlength : (opad k16 ++ (innerDigest k16 data w).words).length = 21 := by
    rw [List.length_append, hopad, length_words]
  have hsecond : blockAt (pad (opad k16 ++ (innerDigest k16 data w).words) 672) 1 =
      (innerDigest k16 data w).words ++ [0x80000000, 0, 0, 0, 0, 0, 0, 0, 0, 0, 0x000002A0] := by
    rw [pad_672_eq_append hlength, blockAt, List.append_assoc, List.drop_left' hopad]
    rfl
  have hcount : blockCount 672 - 1 = 1 := rfl
  refine ⟨compress_append hipad _ (Nat.le_add_right 512 _), ?_⟩
  rw [hmacText, compress_append hopad _ (by decide), hcount, List.range'_one, List.foldl_cons,
    List.foldl_nil, hsecond]

/-! ## The command (R167) -/

/-- Settles O49, by the effect of HMAC on an engine that is not locked and the two pad blocks. -/
theorem hmacWritesTheDigest : Obligations.HmacWritesTheDigest := by
  intro w s hgood kw0 kw ipadBlock opadBlock inner
  rw [exec_of_good hgood, effect, hmacText, innerDigest, ipad_keyBlock, opad_keyBlock]
  rfl

end Sys2Proof.Machine
end

section
/-! PROOFS. The output encoders (spec/44_output_encoders.md): the digits of the hex rendering (O52, O53), the
six-bit groups of the base-64 rendering (O54), the raw characters (O55) and the four commands (O50). Digest
bytes, nibbles and six-bit groups are fields of bits read off one number, so all of them rest on what a field
of a field is. -/

namespace Sys2Proof.Machine

/-! ## Digest bytes (R170) -/

/-- A field of bits inside a field of bits is a field of the whole number. -/
theorem div_mod_div_mod_two_pow (x a : Nat) {b c e : Nat} (h : c + e ≤ b) :
    x / 2 ^ a % 2 ^ b / 2 ^ c % 2 ^ e = x / 2 ^ (a + c) % 2 ^ e := by
  apply Nat.eq_of_testBit_eq
  intro i
  simp only [Nat.testBit_mod_two_pow, Nat.testBit_div_two_pow]
  by_cases hi : i < e
  · have hinside : i + c < b := by omega
    simp only [hi, hinside, decide_true, Bool.true_and, Nat.add_right_comm, Nat.add_assoc]
  · simp only [hi, decide_false, Bool.false_and]

theorem getD_digestBytes (d : Digest) {n : Nat} (hn : n < 20) :
    (digestBytes d).getD n 0 = (d.word (n / 4)).toNat / 2 ^ (8 * (3 - n % 4)) % 2 ^ 8 := by
  rw [List.getD_eq_getElem _ _ (by rwa [length_digestBytes])]
  simp only [digestBytes, List.getElem_map, List.getElem_range, BitVec.toNat_ushiftRight,
    Nat.shiftRight_eq_div_pow]
  rfl

/-! ## Hex (R171, R172) -/

/-- Nibble `m` of the digest, eight to a word, most significant first. -/
def Digest.nibble (d : Digest) (m : Nat) : Nat := (d.word (m / 8)).toNat / 2 ^ (28 - 4 * (m % 8)) % 16

theorem Digest.nibble_lt (d : Digest) (m : Nat) : d.nibble m < 16 := Nat.mod_lt _ (by decide)

/-- The high half of byte `n` is nibble `2n`. -/
theorem getD_digestBytes_div (d : Digest) {n : Nat} (hn : n < 20) :
    (digestBytes d).getD n 0 / 16 = d.nibble (2 * n) := by
  have hlt : (digestBytes d).getD n 0 / 2 ^ 4 < 2 ^ 4 := by
    rw [getD_digestBytes d hn]
    omega
  have hword : 2 * n / 8 = n / 4 := by omega
  have hshift : 28 - 4 * (2 * n % 8) = 8 * (3 - n % 4) + 4 := by omega
  calc (digestBytes d).getD n 0 / 16
      = (digestBytes d).getD n 0 / 2 ^ 4 % 2 ^ 4 := (Nat.mod_eq_of_lt hlt).symm
    _ = (d.word (n / 4)).toNat / 2 ^ (8 * (3 - n % 4) + 4) % 2 ^ 4 := by
      rw [getD_digestBytes d hn, div_mod_div_mod_two_pow _ _ (by decide)]
    _ = d.nibble (2 * n) := by
      rw [Digest.nibble, hword, hshift]
      rfl

/-- The low half of byte `n` is nibble `2n + 1`. -/
theorem getD_digestBytes_mod (d : Digest) {n : Nat} (hn : n < 20) :
    (digestBytes d).getD n 0 % 16 = d.nibble (2 * n + 1) := by
  have hword : (2 * n + 1) / 8 = n / 4 := by omega
  have hshift : 28 - 4 * ((2 * n + 1) % 8) = 8 * (3 - n % 4) := by omega
  rw [Digest.nibble, hword, hshift, getD_digestBytes d hn]
  exact Nat.mod_mod_of_dvd _ (by decide)

/-- What a rendering of two characters an entry holds at position `2n` and at position `2n + 1`. -/
theorem getD_flatMap_pair {α β : Type} (f g : α → β) (a : α) (b : β) (l : List α) {n : Nat}
    (hn : n < l.length) :
    (l.flatMap fun x => [f x, g x]).getD (2 * n) b = f (l.getD n a) ∧
      (l.flatMap fun x => [f x, g x]).getD (2 * n + 1) b = g (l.getD n a) := by
  induction l generalizing n with
  | nil => exact absurd hn (Nat.not_lt_zero n)
  | cons x l ih =>
    cases n with
    | zero => exact ⟨rfl, rfl⟩
    | succ n => exact ih (Nat.lt_of_succ_lt_succ hn)

/-- Character `m` of the hex rendering is the table's entry for nibble `m`. -/
theorem getD_toHex (d : Digest) (u : HexCase) {m : Nat} (hm : m < 40) :
    (toHex d u).getD m 0 = (hexTable u).getD (d.nibble m) 0 := by
  have hn : m / 2 < 20 := by omega
  obtain ⟨hhigh, hlow⟩ := getD_flatMap_pair (fun b => (hexTable u).getD (b / 16) 0)
    (fun b => (hexTable u).getD (b % 16) 0) 0 0 (digestBytes d) (by rwa [length_digestBytes])
  rw [getD_digestBytes_div d hn] at hhigh
  rw [getD_digestBytes_mod d hn] at hlow
  obtain heven | hodd : m = 2 * (m / 2) ∨ m = 2 * (m / 2) + 1 := by omega
  · rw [heven]
    exact hhigh
  · rw [hodd]
    exact hlow

/-- The codes of the two hex tables (R171). -/
theorem toNat_getD_hexTable (u : HexCase) : ∀ v < 16, ((hexTable u).getD v 0).toNat =
    if v < 10 then 0x30 + v else (match u with | .lower => 0x61 | .upper => 0x41) + (v - 10) := by
  cases u <;> decide

/-- Settles O52: the character is its nibble's entry in the table, and the table has the codes of R171. -/
theorem hexDigits : Obligations.HexDigits := by
  intro D u m hm v
  rw [getD_toHex D u hm, toNat_getD_hexTable u _ (D.nibble_lt m)]
  rfl

/-- The two tables agree on the decimal digits only. -/
theorem hexTable_lower_eq_upper_iff :
    ∀ v < 16, (hexTable .lower).getD v 0 = (hexTable .upper).getD v 0 ↔ v < 10 := by decide

/-- Settles O53: both renderings look the same nibble up, each in its own table. -/
theorem hexCasesDifferOnlyInLetters : Obligations.HexCasesDifferOnlyInLetters := by
  intro D m hm
  rw [getD_toHex D .lower hm, getD_toHex D .upper hm]
  exact hexTable_lower_eq_upper_iff _ (D.nibble_lt m)

/-! ## Base-64 (R173 to R175) -/

/-- The words are the base-`2^32` digits of the digest's number. -/
theorem toNat_word (d : Digest) {k : Nat} (hk : k < 5) :
    (d.word k).toNat = digestNumber d / 2 ^ (32 * (4 - k)) % 2 ^ 32 := by
  obtain ⟨h0, h1, h2, h3, h4⟩ := d
  have b0 := h0.isLt
  have b1 := h1.isLt
  have b2 := h2.isLt
  have b3 := h3.isLt
  have b4 := h4.isLt
  simp only [Digest.word, Digest.words, digestNumber]
  interval_cases k <;> simp only [List.getD_cons_zero, List.getD_cons_succ] <;> omega

/-- The bytes are the base-256 digits of the digest's number followed by one zero byte, which fills the last
group of three. -/
theorem getD_digestBytes_eq_digit (d : Digest) {n : Nat} (hn : n ≤ 20) :
    (digestBytes d).getD n 0 = digestNumber d * 2 ^ 8 / 2 ^ (8 * (20 - n)) % 2 ^ 8 := by
  obtain hlt | rfl := Nat.lt_or_eq_of_le hn
  · have hshift : 32 * (4 - n / 4) + 8 * (3 - n % 4) = 8 * (19 - n) := by omega
    have hsucc : 8 * (20 - n) = 8 * (19 - n) + 8 := by omega
    rw [getD_digestBytes d hlt, toNat_word d (by omega), div_mod_div_mod_two_pow _ _ (by omega), hshift,
      hsucc, Nat.pow_add, Nat.mul_div_mul_right _ _ (by decide)]
  · rw [List.getD_eq_default _ _ (by rw [length_digestBytes])]
    omega

theorem tripletBits_eq_add {b : List Nat} {g : Nat} (hmid : b.getD (3 * g + 1) 0 < 2 ^ 8)
    (hlow : b.getD (3 * g + 2) 0 < 2 ^ 8) :
    tripletBits b g =
      b.getD (3 * g) 0 * 2 ^ 16 + b.getD (3 * g + 1) 0 * 2 ^ 8 + b.getD (3 * g + 2) 0 := by
  have hrest : b.getD (3 * g + 1) 0 * 2 ^ 8 + b.getD (3 * g + 2) 0 < 2 ^ 16 := by omega
  rw [tripletBits, Nat.or_assoc, ← Nat.shiftLeft_add_eq_or_of_lt hlow, Nat.shiftLeft_eq _ 8,
    ← Nat.shiftLeft_add_eq_or_of_lt hrest, Nat.shiftLeft_eq, Nat.add_assoc]

/-- The groups of three bytes are the base-`2^24` digits of the digest's number and the zero byte. -/
theorem tripletBits_digestBytes (d : Digest) {g : Nat} (hg : g < 7) :
    tripletBits (digestBytes d) g = digestNumber d * 2 ^ 8 / 2 ^ (24 * (6 - g)) % 2 ^ 24 := by
  have hhigh : 8 * (20 - 3 * g) = 24 * (6 - g) + 16 := by omega
  have hmid : 8 * (20 - (3 * g + 1)) = 24 * (6 - g) + 8 := by omega
  have hlow : 8 * (20 - (3 * g + 2)) = 24 * (6 - g) := by omega
  have h0 := getD_digestBytes_eq_digit d (n := 3 * g) (by omega)
  have h1 := getD_digestBytes_eq_digit d (n := 3 * g + 1) (by omega)
  have h2 := getD_digestBytes_eq_digit d (n := 3 * g + 2) (by omega)
  rw [hhigh, Nat.pow_add, ← Nat.div_div_eq_div_mul] at h0
  rw [hmid, Nat.pow_add, ← Nat.div_div_eq_div_mul] at h1
  rw [hlow] at h2
  rw [tripletBits_eq_add (by omega) (by omega), h0, h1, h2]
  omega

/-- The six bits number `6q` to `6q + 5` of the digest extended with two zero bits (R175). -/
def sextet (d : Digest) (q : Nat) : Nat := digestNumber d * 4 / 2 ^ (6 * (26 - q)) % 64

theorem sextet_lt (d : Digest) (q : Nat) : sextet d q < 64 := Nat.mod_lt _ (by decide)

/-- The quarters of a group of three bytes are the six-bit groups of the digest. -/
theorem tripletBits_shiftRight_eq_sextet (d : Digest) {q : Nat} (hq : q < 27) :
    tripletBits (digestBytes d) (q / 4) >>> (6 * (3 - q % 4)) % 64 = sextet d q := by
  have hshift : 24 * (6 - q / 4) + 6 * (3 - q % 4) = 6 * (26 - q) + 6 := by omega
  calc tripletBits (digestBytes d) (q / 4) >>> (6 * (3 - q % 4)) % 64
      = digestNumber d * 2 ^ 8 / 2 ^ (24 * (6 - q / 4)) % 2 ^ 24 / 2 ^ (6 * (3 - q % 4)) % 2 ^ 6 := by
        rw [tripletBits_digestBytes d (by omega), Nat.shiftRight_eq_div_pow]
        rfl
    _ = digestNumber d * 4 * 2 ^ 6 / 2 ^ (6 * (26 - q) + 6) % 2 ^ 6 := by
        rw [div_mod_div_mod_two_pow _ _ (by omega), hshift, Nat.mul_assoc]
        rfl
    _ = sextet d q := by
        rw [Nat.pow_add, Nat.mul_div_mul_right _ _ (by decide)]
        rfl

/-- Of the 28 positions the first 27 are characters of the alphabet and the last is the pad. -/
theorem toBase64_eq_map_append (d : Digest) (padding : Option Character) :
    toBase64 d padding = (List.range 27).map (fun q => base64Table.getD
      (tripletBits (digestBytes d) (q / 4) >>> (6 * (3 - q % 4)) % 64) 0) ++ padding.toList := by
  cases padding <;> rfl

theorem toBase64_some (d : Digest) (ch : Character) : toBase64 d (some ch) = toBase64 d none ++ [ch] := by
  rw [toBase64_eq_map_append, toBase64_eq_map_append, Option.toList_none, Option.toList_some,
    List.append_nil]

/-- Character `q` of the unpadded rendering is the alphabet's for the six-bit group `q`. -/
theorem getD_toBase64_none (d : Digest) {q : Nat} (hq : q < 27) :
    (toBase64 d none).getD q 0 = base64Table.getD (sextet d q) 0 := by
  rw [List.getD_eq_getElem _ _ (by rw [length_toBase64]; exact hq)]
  simp only [toBase64_eq_map_append, Option.toList_none, List.append_nil, List.getElem_map,
    List.getElem_range, tripletBits_shiftRight_eq_sextet d hq]

/-- The codes of the alphabet (R173). -/
theorem toNat_getD_base64Table : ∀ v < 64, (base64Table.getD v 0).toNat =
    if v < 26 then 0x41 + v else if v < 52 then 0x61 + (v - 26)
    else if v < 62 then 0x30 + (v - 52) else if v = 62 then 0x2B else 0x2F := by decide

/-- Settles O54: each position looks its six-bit group up in the alphabet, and the pad stands last. -/
theorem base64SixBitGroups : Obligations.Base64SixBitGroups := by
  intro D
  refine ⟨fun q hq => ?_, length_toBase64 D none, toBase64_some D⟩
  rw [getD_toBase64_none D hq, toNat_getD_base64Table _ (sextet_lt D q)]
  rfl

/-! ## Text (R176) -/

theorem decodedChar_words_w8 (d : Digest) (k : Nat) :
    decodedChar d.words .w8 k =
      BitVec.ofNat 16 ((d.word (k / 4) >>> (8 * (3 - k % 4))).toNat % 256) := by
  have hword : k * 8 / 32 = k / 4 := by omega
  have hshift : charShift .w8 k = 8 * (3 - k % 4) := by
    simp only [charShift, Width.bits]
    omega
  rw [decodedChar, hshift, Width.bits, hword]
  rfl

theorem toText_w8 (d : Digest) : toText d .w8 = (digestBytes d).map (BitVec.ofNat 16) := by
  rw [toText, decodeWords, digestBytes, List.map_map, length_words]
  exact List.map_congr_left fun k _ => decodedChar_words_w8 d k

/-- A 16-bit character of the raw rendering is one half of a word, the upper half first. -/
theorem toNat_getD_toText_w16 (d : Digest) (k : Nat) :
    ((toText d .w16).getD k 0).toNat = (d.word (k / 2)).toNat / 2 ^ (16 * (1 - k % 2)) % 2 ^ 16 := by
  have hword : k * 16 / 32 = k / 2 := by omega
  have hshift : charShift .w16 k = 16 * (1 - k % 2) := by
    simp only [charShift, Width.bits]
    omega
  rw [toText, getD_decodeWords, decodedChar, hshift, Width.bits, hword, BitVec.toNat_ofNat, Nat.mod_mod,
    BitVec.toNat_ushiftRight, Nat.shiftRight_eq_div_pow, Digest.word]

theorem toNat_getD_toText_w16_eq_bytes (d : Digest) {k : Nat} (hk : k < 10) :
    ((toText d .w16).getD k 0).toNat =
      (digestBytes d).getD (2 * k) 0 * 256 + (digestBytes d).getD (2 * k + 1) 0 := by
  have hword : 2 * k / 4 = k / 2 := by omega
  have hword' : (2 * k + 1) / 4 = k / 2 := by omega
  have hhigh : 8 * (3 - 2 * k % 4) = 16 * (1 - k % 2) + 8 := by omega
  have hlow : 8 * (3 - (2 * k + 1) % 4) = 16 * (1 - k % 2) := by omega
  rw [toNat_getD_toText_w16, getD_digestBytes d (by omega), getD_digestBytes d (by omega), hword, hword',
    hhigh, hlow, Nat.pow_add, ← Nat.div_div_eq_div_mul]
  omega

theorem getD_toText_w16 (d : Digest) (k : Nat) :
    (toText d .w16).getD k 0 = if k % 2 = 0 then (d.word (k / 2)).extractLsb' 16 16
      else (d.word (k / 2)).extractLsb' 0 16 := by
  apply BitVec.eq_of_toNat_eq
  rw [toNat_getD_toText_w16]
  split
  next heven => rw [heven, BitVec.extractLsb'_toNat, Nat.shiftRight_eq_div_pow]
  next hodd =>
    rw [Nat.mod_two_ne_zero.mp hodd, BitVec.extractLsb'_toNat, Nat.shiftRight_eq_div_pow]

/-- Settles O55, by the place of each character in its word. -/
theorem textCharacters : Obligations.TextCharacters := fun D =>
  ⟨toText_w8 D, length_toText D .w8, length_toText D .w16, fun k hk =>
    ⟨toNat_getD_toText_w16_eq_bytes D hk, getD_toText_w16 D k⟩⟩

/-! ## The commands (R178) -/

section Command

variable {s : State} {i : Instr} {r : Text}

/-- With a digest, a command that emits a result string leaves it in `OUT`. -/
theorem exec_emit_of_valid (hgood : s.engine.err = .eNone) (hv : s.engine.dgv = true)
    (hi : effect s.cfg i s.engine = s.engine.emit r) : ∃ t, exec i s = .next t ∧ ResultIn s t r := by
  refine ⟨_, exec_of_good hgood i, ?_⟩
  rw [hi, Engine.emit_of_valid r hv]
  exact ⟨rfl, fun k => outImage_getElem r k.val k.isLt, rfl⟩

/-- Without one it raises `E_NODIGEST` (R193). -/
theorem exec_emit_of_no_digest (hgood : s.engine.err = .eNone) (hv : s.engine.dgv = false)
    (hi : effect s.cfg i s.engine = s.engine.emit r) :
    exec i s = .next { s with engine := { s.engine with err := .eNoDigest } } := by
  rw [exec_of_good hgood, hi, Engine.emit_of_no_digest r hv]
  rfl

end Command

/-- Settles O50: each of the four commands emits its result string. -/
theorem encodersWriteTheResult : Obligations.EncodersWriteTheResult := by
  intro s u w ch hgood
  refine ⟨fun hv => ?_, fun hv => ?_⟩
  · exact ⟨exec_emit_of_valid hgood hv rfl, exec_emit_of_valid hgood hv rfl,
      exec_emit_of_valid hgood hv rfl, exec_emit_of_valid hgood hv rfl⟩
  · simp only [List.forall_mem_cons]
    exact ⟨exec_emit_of_no_digest hgood hv rfl, exec_emit_of_no_digest hgood hv rfl,
      exec_emit_of_no_digest hgood hv rfl, exec_emit_of_no_digest hgood hv rfl, nofun⟩

end Sys2Proof.Machine
end

section
/-! PROOFS. Exceptions (spec/60_exceptions.md): an illegal word (O6), the causes of the three errors and their
precision (O26), the error lock (O27) and the two ways out of it (O28), the idle step (O10), and the bit
lengths that keep Pad's length word exact (O44). -/

namespace Sys2Proof.Machine

/-! ## The illegal word (R191) -/

theorem command_illegal_of_good {c : Word} {why : IllegalWord} {s : State} (hc : decode32 c = .error why)
    (h : s.engine.err = .eNone) : command c s = .next (s.withEngine (s.engine.raise .eIllCmd)) := by
  rw [command_of_illegal hc, execIllegal, State.honour_of_good _ h]

/-- Settles O6: a legal word matches the row of its command, so a word that matches none is illegal. -/
theorem illegalWordRaisesIllCmd : Obligations.IllegalWordRaisesIllCmd := by
  intro c s hgood hnone
  cases hc : decode32 c with
  | error why => exact command_illegal_of_good hc hgood
  | ok i =>
    have hmatch : c &&& i.row.mask = i.row.pattern :=
      (opcodeMapDecidesTheCommand i.row (row_mem_opcodeMap i) c).mpr ⟨i, hc, rfl⟩
    exact absurd hmatch (hnone i.row (row_mem_opcodeMap i))

/-! ## The causes of the table (R190, R192, R193) and precision (R198) -/

/-- The code a legal command raises on an engine that is not locked, 0 when it completes. -/
def errorRaised (cfg : Config) (S : Engine) : Instr → ErrorCode
  | .pushd _ => if S.data.length = cfg.dataMax.val then .eCapacity else .eNone
  | .pushk _ => if S.key.length = cfg.keyMax.val then .eCapacity else .eNone
  | .hex _ | .b64 | .txt _ | .b64p _ => if S.dgv then .eNone else .eNoDigest
  | .nop | .clr | .sha1 _ | .hmac _ => .eNone

section Causes

variable {cfg : Config} {S : Engine} {i : Instr}

theorem errorRaised_ne_eIllCmd : errorRaised cfg S i ≠ .eIllCmd := by
  cases i with
  | nop | clr | sha1 | hmac => nofun
  | pushd | pushk | hex | b64 | txt | b64p => simp only [errorRaised]; split <;> decide

theorem errorRaised_eq_eCapacity_iff : errorRaised cfg S i = .eCapacity ↔
    (∃ ch, i = .pushd ch) ∧ S.data.length = cfg.dataMax.val ∨
      (∃ ch, i = .pushk ch) ∧ S.key.length = cfg.keyMax.val := by
  cases i with
  | nop | clr | sha1 | hmac | pushd | pushk => simp [errorRaised]
  | hex | b64 | txt | b64p => cases hv : S.dgv <;> simp [errorRaised, hv]

theorem errorRaised_eq_eNoDigest_iff : errorRaised cfg S i = .eNoDigest ↔ S.dgv = false ∧
    ((∃ u, i = .hex u) ∨ i = .b64 ∨ (∃ w, i = .txt w) ∨ ∃ ch, i = .b64p ch) := by
  cases i with
  | nop | clr | sha1 | hmac | hex | b64 | txt | b64p => simp [errorRaised]
  | pushd => by_cases hfull : S.data.length = cfg.dataMax.val <;> simp [errorRaised, hfull]
  | pushk => by_cases hfull : S.key.length = cfg.keyMax.val <;> simp [errorRaised, hfull]

/-- On an engine that is not locked a command completes without an error, or it raises its error and does
nothing else (R198). -/
theorem effect_completes_or_raises (h : S.err = .eNone) :
    (errorRaised cfg S i = .eNone ∧ (effect cfg i S).err = .eNone) ∨
      effect cfg i S = S.raise (errorRaised cfg S i) := by
  cases i with
  | nop => exact .inl ⟨rfl, h⟩
  | clr => exact .inl ⟨rfl, rfl⟩
  | sha1 | hmac => exact .inl ⟨rfl, (Engine.setDigest_err S _).trans h⟩
  | pushd ch =>
    by_cases hfull : S.data.length = cfg.dataMax.val
    · exact .inr (by rw [effect, Engine.appendData_of_full ch hfull, errorRaised, if_pos hfull])
    · exact .inl ⟨if_neg hfull, by rw [effect, Engine.appendData_of_room ch hfull, h]⟩
  | pushk ch =>
    by_cases hfull : S.key.length = cfg.keyMax.val
    · exact .inr (by rw [effect, Engine.appendKey_of_full ch hfull, errorRaised, if_pos hfull])
    · exact .inl ⟨if_neg hfull, by rw [effect, Engine.appendKey_of_room ch hfull, h]⟩
  | hex | b64 | txt | b64p =>
    cases hv : S.dgv with
    | true => exact .inl ⟨if_pos hv, by rw [effect, Engine.emit_of_valid _ hv, h]⟩
    | false => exact .inr (by simp [effect, errorRaised, Engine.emit_of_no_digest _ hv, hv])

theorem effect_err (h : S.err = .eNone) : (effect cfg i S).err = errorRaised cfg S i := by
  obtain ⟨hnone, herr⟩ | hraise := effect_completes_or_raises (cfg := cfg) (i := i) h
  · rw [herr, hnone]
  · rw [hraise, Engine.raise_err]

end Causes

/-- Settles O26: an illegal word raises `E_ILLCMD`, a legal one what `errorRaised` says. -/
theorem errorCausesAndPrecision : Obligations.ErrorCausesAndPrecision := by
  refine ⟨rfl, rfl, rfl, rfl, fun c s hgood => ?_⟩
  cases hc : decode32 c with
  | error why =>
    exact ⟨_, command_illegal_of_good hc hgood, iff_of_true rfl ⟨why, rfl⟩,
      iff_of_false nofun (by simp), iff_of_false nofun (by simp), fun _ => rfl⟩
  | ok i =>
    refine ⟨_, (command_of_legal hc s).trans (exec_of_good hgood i), ?_⟩
    simp only [State.withEngine_engine, effect_err hgood, Except.ok.injEq]
    refine ⟨iff_of_false errorRaised_ne_eIllCmd nofun, errorRaised_eq_eCapacity_iff,
      errorRaised_eq_eNoDigest_iff, fun hraises => ?_⟩
    obtain ⟨hnone, -⟩ | hraise := effect_completes_or_raises (cfg := s.cfg) (i := i) hgood
    · exact absurd hnone hraises
    · rw [hraise]
      rfl

/-! ## The error lock and the ways out of it (R195, R196) -/

theorem decode32_eq_clr_iff {c : Word} : decode32 c = .ok .clr ↔ c = 0x01000000 := by
  constructor
  · exact fun hc => (encodeOfDecodeIsIdentity c .clr hc).symm
  · rintro rfl
    exact decodeOfEncodeIsIdentity .clr

theorem command_clr (s : State) : command 0x01000000 s = .next (s.withEngine Engine.reset) := by
  rw [command_of_legal (decode32_eq_clr_iff.mpr rfl), exec_clr]

theorem command_of_locked {c : Word} {s : State} (h : s.engine.err ≠ .eNone) (hc : c ≠ 0x01000000) :
    command c s = .next s := by
  cases hd : decode32 c with
  | error why => rw [command_of_illegal hd, execIllegal, State.honour_of_locked _ h]
  | ok i =>
    have hi : i ≠ .clr := by
      rintro rfl
      exact hc (decode32_eq_clr_iff.mp hd)
    rw [command_of_legal hd, exec_of_locked hi h]

/-- Settles O27: commands meet the lock, reads do not. -/
theorem lockedEngineIgnoresAllButClr : Obligations.LockedEngineIgnoresAllButClr := fun s hlocked =>
  ⟨fun _ hc => command_of_locked hlocked hc, fun _ hi => hostRead_of_lt (Nat.lt_succ_of_le hi) s⟩

/-- Settles O28: of the actions that answer a next state (`serve_cases`), a command other than CLR, an
ignored write and a read leave `ERR` of a locked engine as it is. -/
theorem onlyClrAndResetLeaveTheLock : Obligations.OnlyClrAndResetLeaveTheLock := by
  refine ⟨fun e s t hlocked hserve hgood => ?_, fun s => ⟨rfl, command_clr s⟩⟩
  obtain ⟨c, rfl, hcommand⟩ | ⟨i, v, -, -, -, rfl⟩ | ⟨i, -, -, rfl⟩ | ⟨rfl, -⟩ := serve_cases hserve
  · by_cases hc : c = 0x01000000
    · exact .inr (congrArg _ hc)
    · rw [command_of_locked hlocked hc] at hcommand
      cases hcommand
      exact absurd hgood hlocked
  · exact absurd hgood hlocked
  · exact absurd hgood hlocked
  · exact .inl rfl

/-! ## The idle step (R205) -/

/-- Settles O10: with no oldest action there is nothing to serve. -/
theorem idleStepHoldsState : Obligations.IdleStepHoldsState := by
  intro s hidle
  rw [step, serveNext, hidle]

/-! ## The bit lengths (R206, R6) -/

/-- Settles O44: R6's capacities leave room for 16 bits a character, and in DATA for the block of the inner
pass. -/
theorem bitLengthsFitTheLengthWord : Obligations.BitLengthsFitTheLengthWord := by
  intro s w hinv
  have hkey : s.engine.key.length < 2 ^ 28 := hinv.key_fits.trans_lt s.cfg.keyMax.isLt
  have hdata : s.engine.data.length < 2 ^ 28 - 32 := hinv.data_fits.trans_lt s.cfg.dataMax.isLt
  have hkeyBits : bitLen s.engine.key w ≤ s.engine.key.length * 16 := Nat.mul_le_mul_left _ (bits_le_16 w)
  have hdataBits : bitLen s.engine.data w ≤ s.engine.data.length * 16 := Nat.mul_le_mul_left _ (bits_le_16 w)
  omega

end Sys2Proof.Machine
end

section
/-! PROOFS. Reset (spec/70_reset_and_hazards.md): the reset event (O17), CLR with the same effect (O30), and a
run that begins with CLR (O31). -/

namespace Sys2Proof.Machine

theorem hostReset_eq (s : State) : hostReset s = .next (s.withEngine Engine.reset) := by
  rw [hostReset, Engine.toReset_eq]

/-- The step that serves a write of CLR to CMD puts the engine in `S0`. -/
theorem step_of_clr_write {s : State} {rest : List HostEvent}
    (h : s.pending = .write cmdIndex 0x01000000 :: rest) :
    step s = .next { s with engine := Engine.reset, pending := rest } := by
  rw [step_of_cmd_write h, stepR100_clr (decode32_eq_clr_iff.mpr rfl)]

/-- Settles O17: the reset event replaces the engine by `S0`, and nothing else. -/
theorem resetEventGivesS0 : Obligations.ResetEventGivesS0 := fun s =>
  ⟨s.withEngine Engine.reset, hostReset_eq s, rfl, rfl⟩

/-- Settles O30: CLR, its word written to CMD and the reset event give one state. -/
theorem clrReturnsToReset : Obligations.ClrReturnsToReset := fun s =>
  ⟨exec_clr s, command_clr s, (hostReset_eq s).trans (command_clr s).symm⟩

/-- Settles O31: the first step of the run serves CLR, and what is left is the run from `S0`. -/
theorem clrMakesRunIndependent : Obligations.ClrMakesRunIndependent := fun _ p =>
  run_of_next (step_of_clr_write List.map_cons) p.length

end Sys2Proof.Machine
end

section
/-! PROOFS. The sample of decodings (spec/95_test_vectors.md section 7.1): words of every format that has an
operand, and illegal words with the ground of R76 that refuses each (O8). -/

namespace Sys2Proof.Machine

theorem decode32_of_encode_eq {c : Word} {i : Instr} (h : encode i = c) : decode32 c = .ok i :=
  decode32_eq_ok_iff.mpr (fieldsOf_iff_encode_eq.mpr h)

theorem toOption_decode32_of_illegal {c : Word} {why : IllegalWord} (h : decode32 c = .error why) :
    (decode32 c).toOption = none := congrArg Except.toOption h

/-- Settles O8: each legal word is the encoder's for its command, and the decoder finds a ground against
each illegal one. -/
theorem sampleWordsDecode : Obligations.SampleWordsDecode := by
  refine ⟨?pushd, ?pushk, ?sha1, ?hmac, ?hex, ?b64p, ?modeSetInC, ?modeSetInZ, ?reservedSet, ?noOpcode⟩
  case pushd | pushk | sha1 | hmac | hex | b64p => exact decode32_of_encode_eq (by decide)
  case modeSetInC | modeSetInZ => exact toOption_decode32_of_illegal (why := .modeBit) (by decide)
  case reservedSet => exact toOption_decode32_of_illegal (why := .reservedBits) (by decide)
  case noOpcode => exact toOption_decode32_of_illegal (why := .unassignedOpcode) (by decide)

end Sys2Proof.Machine
end
